-- ==== Sys2Proof/Word.lean ====
section
/-! DEFINITION. The word types of the CAA (00_scope.md R7, R9; 30_encoding.md R47). Every value is unsigned. -/

namespace Sys2Proof

/-- A payload byte or a record length: "an unsigned 8-bit value" (00_scope.md R7). -/
abbrev Byte := BitVec 8

/-- A 16-bit address, checksum or count (00_scope.md R7). -/
abbrev Half := BitVec 16

/-- A 24-bit command word as it stands on the `cmd` port: bit `i` is wire `cmd[i]`
(30_encoding.md R47; 20_memory.md R39). -/
abbrev CmdWord := BitVec 24

end Sys2Proof
end

