-- ==== Sys2Proof/Syntax.lean ====
section
/-! DEFINITION. The seven commands of spec/opcode_table.json, one constructor each, with the operands of their operand
form (30_encoding.md R48, R49). -/

namespace Sys2Proof

/-- A command of the CAA. -/
inductive Instr where
  /-- NOP, form none (40_run_control.md R60). -/
  | nop
  /-- START a16, form A16 (40_run_control.md R61). -/
  | start (a16 : Half)
  /-- BEGIN n, form L8 (41_record.md R65). -/
  | beginRec (n : Byte)
  /-- DATA b, form B8 (41_record.md R66). -/
  | data (b : Byte)
  /-- DATA2 b0 b1, form B8x2: `b0` is the earlier byte (41_record.md R67; 20_memory.md R38). -/
  | data2 (b0 b1 : Byte)
  /-- END, form none (41_record.md R68). -/
  | endRec
  /-- TERM, form none (42_terminator.md R79). -/
  | term
deriving DecidableEq, Repr

end Sys2Proof
end

