-- ==== Sys2Proof/WellFormed.lean ====
section
/-! DEFINITION. Which commands an instance has. The operand fields are bit vectors of their field's width, so the one check
left is TERM's: it is a command only of an instance with TERM_EN = 1 (30_encoding.md R52). BEGIN with a length above 24 is
well formed: R48 says that it can be encoded and faults when it executes. -/

namespace Sys2Proof

/-- `i` is a command of an instance whose TERM_EN parameter is `termEn`. -/
def Instr.wellFormed (termEn : Bool) : Instr → Bool
  | .nop => true
  | .start _ => true
  | .beginRec _ => true
  | .data _ => true
  | .data2 _ _ => true
  | .endRec => true
  | .term => termEn

end Sys2Proof
end

