-- ==== Sys2Proof/Decode.lean ====
section
/-! DEFINITION. Decoding and encoding of command words (30_encoding.md R47 to R54). `decode` is total on all 2^24 words and
reads only the word and TERM_EN (R54); every illegal word is rejected by the name of the clause of 60_exceptions.md R84
that it falls under. -/

namespace Sys2Proof

/-- OP, `w[23:20]` (30_encoding.md R47). -/
def opField (w : CmdWord) : BitVec 4 := w.extractLsb' 20 4

/-- RSV, `w[19:16]` (30_encoding.md R47). -/
def rsvField (w : CmdWord) : BitVec 4 := w.extractLsb' 16 4

/-- ARG, `w[15:0]` (30_encoding.md R47). -/
def argField (w : CmdWord) : Half := w.extractLsb' 0 16

/-- `ARG[15:8]`: the first byte of form B8x2, and the must-be-zero byte of forms L8 and B8 (30_encoding.md R48). -/
def argHigh (w : CmdWord) : Byte := w.extractLsb' 8 8

/-- `ARG[7:0]`: the operand of forms L8 and B8, and the second byte of form B8x2 (30_encoding.md R48). -/
def argLow (w : CmdWord) : Byte := w.extractLsb' 0 8

/-- Why a word is illegal: the clauses of 60_exceptions.md R84. Where several hold, `decode` names the first in the order of
30_encoding.md R54's text; all of them raise the same E_ILL, so the name is not observable (log 10). -/
inductive Illegal where
  /-- R84 (a): RSV is not 0. -/
  | reservedBits
  /-- R84 (b): OP is 0x7 to 0xF. -/
  | undefinedOpcode
  /-- R84 (c): OP is 0x0, 0x4 or 0x5 and ARG is not 0. -/
  | operandNotZero
  /-- R84 (d): OP is 0x2 or 0x3 and `ARG[15:8]` is not 0. -/
  | highByteNotZero
  /-- R84 (e): OP is 0x5 and TERM_EN = 0. -/
  | termDisabled
deriving DecidableEq, Repr

/-- Decoding of a word whose RSV field is 0, by OP (30_encoding.md R54). -/
def decodeOp (termEn : Bool) (w : CmdWord) : Except Illegal Instr :=
  match (opField w).toNat with
  | 0 => if argField w = 0#16 then .ok .nop else .error .operandNotZero
  | 1 => .ok (.start (argField w))
  | 2 => if argHigh w = 0#8 then .ok (.beginRec (argLow w)) else .error .highByteNotZero
  | 3 => if argHigh w = 0#8 then .ok (.data (argLow w)) else .error .highByteNotZero
  | 4 => if argField w = 0#16 then .ok .endRec else .error .operandNotZero
  | 5 =>
    if argField w = 0#16 then
      if termEn then .ok .term else .error .termDisabled
    else .error .operandNotZero
  | 6 => .ok (.data2 (argHigh w) (argLow w))
  | _ => .error .undefinedOpcode

/-- 30_encoding.md R54: the command a word stands for, or why it is illegal. -/
def decode (termEn : Bool) (w : CmdWord) : Except Illegal Instr :=
  if rsvField w = 0#4 then decodeOp termEn w else .error .reservedBits

/-- The word with opcode `op`, RSV = 0 and operand `arg` (30_encoding.md R47). -/
def packWord (op : BitVec 4) (arg : Half) : CmdWord := op ++ 0#4 ++ arg

/-- The word of a command (30_encoding.md R49, R55). -/
def encode : Instr → CmdWord
  | .nop => packWord 0x0#4 0#16
  | .start a16 => packWord 0x1#4 a16
  | .beginRec n => packWord 0x2#4 (0#8 ++ n)
  | .data b => packWord 0x3#4 (0#8 ++ b)
  | .endRec => packWord 0x4#4 0#16
  | .term => packWord 0x5#4 0#16
  | .data2 b0 b1 => packWord 0x6#4 (b0 ++ b1)

/-- The table's word `w`, of which the table gives `nbits` bits, as it stands on the 24-bit `cmd` port: bit `i` is wire
`cmd[i]` (20_memory.md R39), the bits above `nbits` are 0. -/
def tableWord (nbits w : Nat) : CmdWord := BitVec.ofNat 24 (w % 2 ^ nbits)

/-- The instruction the decoder reads from a word of spec/opcode_table.json, on an instance that has every row of the table
(TERM_EN = 1; log 4). -/
def decodeTableWord (nbits w : Nat) : Option Instr := (decode true (tableWord nbits w)).toOption

end Sys2Proof
end

