-- ==== Sys2Proof/Config.lean ====
section
/-! DEFINITION. What an instance of the CAA fixes: the two parameters TERM_EN and RESET_ADDR (00_scope.md R5, R6) and the
constant MAX_LEN (R7). The spec leaves no instruction result open, so there is no free value here. -/

namespace Sys2Proof

/-- The parameters of one instance, fixed before power-up (70_reset_and_hazards.md R100); no command and no reset
changes them (log 3). -/
structure Config where
  /-- TERM_EN: whether the terminator command TERM is implemented (00_scope.md R5). -/
  termEn : Bool
  /-- RESET_ADDR: the value the address cursor takes at reset (00_scope.md R6). -/
  resetAddr : Half
deriving DecidableEq, Repr

/-- The default instance: TERM_EN = 0 and RESET_ADDR = 0x0200 (00_scope.md R5, R6). -/
def Config.standard : Config := { termEn := false, resetAddr := 0x0200#16 }

/-- MAX_LEN: the largest legal record length (00_scope.md R7). -/
def maxLen : Nat := 24

end Sys2Proof
end

