-- ==== Sys2Proof/Machine/State.lean ====
section
/-! DEFINITION. The state of the CAA: the twelve registers of 10_state.md R15, and beside them the model's own two fields, the
instance parameters (log 3) and the samples the host drives at the coming edges (log 1). There is no memory, no program
counter and no register file (10_state.md R16, R17; 20_memory.md R36; log 13). -/

namespace Sys2Proof.Machine

/-- PHASE, the 2-bit record sequencer state (10_state.md R21): one constructor per encoding (log 8). -/
inductive Phase where
  /-- 0, IDLE: no record is open. -/
  | idle
  /-- 1, REC: a record is open. -/
  | recording
  /-- 2, DONE: the terminator has been produced. -/
  | done
  /-- Encoding 3, never written (10_state.md R21; 93_implementation_defined.md). -/
  | unused
deriving DecidableEq, Repr

/-- ERR, the 3-bit error cause code (60_exceptions.md R83): one constructor per code (log 8). -/
inductive ErrCode where
  /-- 0, NONE: no error. -/
  | none
  /-- 1, E_ILL: illegal command word. -/
  | ill
  /-- 2, E_SEQ: command not legal in the current phase. -/
  | seq
  /-- 3, E_LEN: BEGIN with a length above 24. -/
  | len
  /-- 4, E_OVR: payload beyond the declared length. -/
  | ovr
  /-- 5, E_UND: END before the declared length is reached. -/
  | und
  /-- 6, reserved, never written. -/
  | reserved6
  /-- 7, reserved, never written. -/
  | reserved7
deriving DecidableEq, Repr

/-- One sample of the input pins, taken at a rising edge of `clk` (10_state.md R27). -/
structure Edge where
  /-- `rst`, synchronous reset, active high. -/
  rst : Bool
  /-- `cmd_valid`: `cmd` carries a command at this edge. -/
  cmdValid : Bool
  /-- `cmd`: not looked at when `cmd_valid` = 0 or `rst` = 1 (70_reset_and_hazards.md R102). -/
  cmd : CmdWord
deriving DecidableEq, Repr

/-- The machine's state. -/
structure State where
  /-- ADDR, the address cursor (10_state.md R18). -/
  addr : Half
  /-- CSUM, the checksum accumulator (R19). -/
  csum : Half
  /-- LEN, the declared length of the open or last record (R20). -/
  len : Byte
  /-- CNT, the payload bytes accumulated since the last BEGIN (R20). -/
  cnt : BitVec 5
  /-- PHASE, the record sequencer (R21). -/
  phase : Phase
  /-- TOTAL, the payload bytes in completed records modulo 65536 (R22). -/
  total : Half
  /-- OUT_LEN, record result: length (R24). -/
  outLen : Byte
  /-- OUT_ADDR, record result: address field (R24). -/
  outAddr : Half
  /-- OUT_CSUM, record result: checksum (R24). -/
  outCsum : Half
  /-- OUT_VALID (R25). -/
  outValid : Bool
  /-- ERR, the error cause code (R23). -/
  err : ErrCode
  /-- FCMD, the command word that raised the error (R23). -/
  fcmd : CmdWord
  /-- The MODEL's own: the parameters of this instance (00_scope.md R5, R6; log 3). -/
  cfg : Config
  /-- The MODEL's own: what the host drives at the coming rising edges, the next edge first; past its end the host
  drives `rst` = 0 and `cmd_valid` = 0 (log 1). -/
  inputs : List Edge
deriving DecidableEq, Repr

/-- Why a step could stop with a fault. It has no constructor: every error the spec gives the block is the fault action of
60_exceptions.md R87, after which the machine goes on, so each is a next state (log 5). Safe: nothing is left out. -/
inductive Fault where
deriving DecidableEq, Repr

/-- Why a step could be refused. -/
inductive Refusal where
  /-- Raised by `exec` alone, for an instruction that has no meaning yet; no arm raises it. Safe: the machine stops. -/
  | notModelled (mnemonic : String)
deriving DecidableEq, Repr

/-- The registers' reset values (10_state.md R32), on the instance `cfg`, with the host about to drive `inputs`. -/
def State.resetOf (cfg : Config) (inputs : List Edge) : State where
  addr := cfg.resetAddr
  csum := 0#16
  len := 0#8
  cnt := 0#5
  phase := .idle
  total := 0#16
  outLen := 0#8
  outAddr := 0#16
  outCsum := 0#16
  outValid := false
  err := .none
  fcmd := 0#24
  cfg := cfg
  inputs := inputs

/-- The machine right after reset (10_state.md R32), on the default instance (00_scope.md R5, R6), with no input placed (log 2). -/
def State.reset : State := State.resetOf Config.standard []

end Sys2Proof.Machine
end

