-- ==== Sys2Proof/Machine/Flags.lean ====
section
/-! DEFINITION. The codes of PHASE and ERR, the halted condition, the phase legality table, the STATUS word and the output ports
(10_state.md R21, R26, R28; 30_encoding.md R59; 60_exceptions.md R83, R88). -/

namespace Sys2Proof.Machine

/-- The 2 bits of PHASE (10_state.md R21). -/
def phaseBits : Phase → BitVec 2
  | .idle => 0#2
  | .recording => 1#2
  | .done => 2#2
  | .unused => 3#2

/-- The 3 bits of ERR (60_exceptions.md R83). -/
def errBits : ErrCode → BitVec 3
  | .none => 0#3
  | .ill => 1#3
  | .seq => 2#3
  | .len => 3#3
  | .ovr => 4#3
  | .und => 5#3
  | .reserved6 => 6#3
  | .reserved7 => 7#3

/-- Halted: `ERR != 0` (00_scope.md R13; 60_exceptions.md R88). -/
def halted (s : State) : Bool := errBits s.err != 0#3

/-- `legal(c, PHASE)`: the table of 30_encoding.md R59, column by column IDLE, REC, DONE, and encoding 3 as that rule
defines it. -/
def legal : Instr → Phase → Bool
  | .nop, _ => true
  | .start _, .idle => true
  | .start _, .recording => false
  | .start _, .done => true
  | .start _, .unused => false
  | .beginRec _, .idle => true
  | .beginRec _, .recording => false
  | .beginRec _, .done => false
  | .beginRec _, .unused => false
  | .data _, .idle => false
  | .data _, .recording => true
  | .data _, .done => false
  | .data _, .unused => false
  | .data2 _ _, .idle => false
  | .data2 _ _, .recording => true
  | .data2 _ _, .done => false
  | .data2 _ _, .unused => false
  | .endRec, .idle => false
  | .endRec, .recording => true
  | .endRec, .done => false
  | .endRec, .unused => false
  | .term, .idle => true
  | .term, .recording => false
  | .term, .done => false
  | .term, .unused => false

/-- STATUS, formed from the registers on every cycle and not stored (10_state.md R26). From bit 23 down: LEN, three reserved
zeros, CNT, TERM_EN, ERR, HALTED, VALID, PHASE. -/
def status (s : State) : BitVec 24 :=
  s.len ++ 0#3 ++ s.cnt ++ BitVec.ofBool s.cfg.termEn ++ errBits s.err ++ BitVec.ofBool (halted s) ++
    BitVec.ofBool s.outValid ++ phaseBits s.phase

/-- The output ports (10_state.md R28). -/
structure Outputs where
  cursorO : BitVec 16
  csumO : BitVec 16
  totalO : BitVec 16
  recLenO : BitVec 8
  recAddrO : BitVec 16
  recCsumO : BitVec 16
  recValidO : BitVec 1
  statusO : BitVec 24
  errO : BitVec 1
  fcmdO : BitVec 24
deriving DecidableEq, Repr

/-- What the output ports show while the machine is in state `s`: each is driven from registers, and no input pin reaches
one without an edge (10_state.md R28; 70_reset_and_hazards.md R103). Reading has no side effect. -/
def outputs (s : State) : Outputs where
  cursorO := s.addr
  csumO := s.csum
  totalO := s.total
  recLenO := s.outLen
  recAddrO := s.outAddr
  recCsumO := s.outCsum
  recValidO := BitVec.ofBool s.outValid
  statusO := status s
  errO := (status s).extractLsb' 3 1
  fcmdO := s.fcmd

end Sys2Proof.Machine
end

