-- ==== Sys2Proof/Machine/Operands.lean ====
section
/-! DEFINITION. The arithmetic on operands: zero extension, addition modulo 65536, the byte split of an address, the header sum
and the target address of a payload byte (00_scope.md R10; 20_memory.md R34, R35, R37; 41_record.md R64, R77). -/

namespace Sys2Proof.Machine

/-- `zext_16(b)` (00_scope.md R10). -/
def zext16 (b : Byte) : Half := b.setWidth 16

/-- `a +16 b = trunc_16(zext_17(a) + zext_17(b))`, addition modulo 65536 (00_scope.md R10); the carry out of bit 15 is
discarded without trace (41_record.md R77). -/
def add16 (a b : Half) : Half := (a.setWidth 17 + b.setWidth 17).setWidth 16

/-- The high byte `a[15:8]` (20_memory.md R37). -/
def highByte (a : Half) : Byte := a.extractLsb' 8 8

/-- The low byte `a[7:0]` (20_memory.md R37). -/
def lowByte (a : Half) : Byte := a.extractLsb' 0 8

/-- `H(n, a) = zext_16(n) +16 zext_16(a[15:8]) +16 zext_16(a[7:0])`, the header sum (41_record.md R64). -/
def headerSum (n : Byte) (a : Half) : Half :=
  add16 (add16 (zext16 n) (zext16 (highByte a))) (zext16 (lowByte a))

/-- The checksum `c` after the payload bytes `bs`, each added as an unsigned 8-bit value, the first one first
(41_record.md R66, R67). -/
def sumBytes (c : Half) (bs : List Byte) : Half := bs.foldl (fun acc b => add16 acc (zext16 b)) c

/-- The target address of payload byte `k`, counted from 0, of a record at `address` (20_memory.md R34): address arithmetic
wraps modulo 65536 (R35). The block never accesses it (R36). -/
def payloadAddr (address : Half) (k : Nat) : Half := add16 address (BitVec.ofNat 16 k)

/-- `n` is a legal record length, 0 to 24 (00_scope.md R7; 60_exceptions.md R86, E_LEN). -/
def lengthLegal (n : Byte) : Bool := decide (n.toNat ≤ maxLen)

end Sys2Proof.Machine
end

