-- ==== Sys2Proof/Machine/Ops.lean ====
section
/-! DEFINITION. The shared operations on registers: taking an error and the reset that leaves it, the register updates of the
commands, and the frame every command runs in (30_encoding.md R56; 60_exceptions.md R87, R89; 70_reset_and_hazards.md R97).
All writes of one command are made at once from the state before it (00_scope.md R10; 20_memory.md R41). -/

namespace Sys2Proof.Machine

/-- `s` with the host about to drive `ins`; a model operation on the model's own field (log 1). -/
def State.withInputs (s : State) (ins : List Edge) : State := { s with inputs := ins }

/-- Taking an error: the fault action `Fault(S, code, w)` of 60_exceptions.md R87. It writes ERR and FCMD and nothing else;
there is no vector, saved program counter or mode. -/
def raise (code : ErrCode) (w : CmdWord) (s : State) : State := { s with err := code, fcmd := w }

/-- Reset (70_reset_and_hazards.md R97): every register takes its value of 10_state.md R32. It is the only way out of the
halted state (60_exceptions.md R88, R92). The instance's parameters and what the host drives next are no registers and
stay (log 3, log 18). -/
def applyReset (s : State) : State := State.resetOf s.cfg s.inputs

/-- START's writes (40_run_control.md R61). -/
def startRun (a16 : Half) (s : State) : State :=
  { s with
    addr := a16
    total := 0#16
    csum := 0#16
    len := 0#8
    cnt := 0#5
    phase := .idle
    outValid := false }

/-- BEGIN's writes for a legal length (41_record.md R65). -/
def openRecord (n : Byte) (s : State) : State :=
  { s with
    len := n
    cnt := 0#5
    csum := headerSum n s.addr
    phase := .recording
    outValid := false }

/-- DATA's and DATA2's writes for the payload bytes `bs` (41_record.md R66, R67). CNT keeps its 5 bits (log 7). -/
def addPayload (bs : List Byte) (s : State) : State :=
  { s with
    csum := sumBytes s.csum bs
    cnt := s.cnt + BitVec.ofNat 5 bs.length }

/-- The record result: OUT_LEN, OUT_ADDR and OUT_CSUM are written together, and OUT_VALID is set (10_state.md R24, R25). -/
def latchResult (len : Byte) (addr csum : Half) (s : State) : State :=
  { s with
    outLen := len
    outAddr := addr
    outCsum := csum
    outValid := true }

/-- END's writes beside the record result: the cursor and the total advance by LEN modulo 65536, and PHASE becomes IDLE
(41_record.md R68). -/
def advance (s : State) : State :=
  { s with
    addr := add16 s.addr (zext16 s.len)
    total := add16 s.total (zext16 s.len)
    phase := .idle }

/-- TERM's writes beside the record result: CSUM takes the terminator sum and PHASE becomes DONE (42_terminator.md R79). -/
def enterDone (sum : Half) (s : State) : State := { s with csum := sum, phase := .done }

/-- The payload bytes `bs` do not fit in the open record: `CNT + |bs| > LEN`, compared without wrap (60_exceptions.md R86,
E_OVR; 41_record.md R77). -/
def overrun (bs : List Byte) (s : State) : Bool := decide (s.cnt.toNat + bs.length > s.len.toNat)

/-- The open record holds exactly its declared length: `CNT = LEN` (60_exceptions.md R86, E_UND). -/
def complete (s : State) : Bool := decide (s.cnt.toNat = s.len.toNat)

/-- The perform step that DATA and DATA2 share: a command that does not fit is refused as a whole (41_record.md R66, R67). -/
def takePayload (bs : List Byte) (s : State) : Except ErrCode State :=
  if overrun bs s then .error .ovr else .ok (addPayload bs s)

/-- The frame of every command, `exec(S, w)` of 30_encoding.md R56 for the word `w` of `i`: halted, then E_ILL (left for a
decoded command is only TERM with TERM_EN = 0; log 6), then the phase table, then the command's own rule `perform`,
which may raise its operand error (60_exceptions.md R89). -/
def accept (i : Instr) (perform : State → Except ErrCode State) (s : State) : Host.Outcome State Fault Refusal :=
  if halted s then .next s
  else if !i.wellFormed s.cfg.termEn then .next (raise .ill (encode i) s)
  else if !legal i s.phase then .next (raise .seq (encode i) s)
  else
    match perform s with
    | .ok s' => .next s'
    | .error code => .next (raise code (encode i) s)

end Sys2Proof.Machine
end

