-- ==== Sys2Proof/Machine/Record.lean ====
section
/-! DEFINITION. The record commands BEGIN, DATA, DATA2 and END (41_record.md). -/

namespace Sys2Proof.Machine

/-- BEGIN opens a record of `n` payload bytes at the cursor and loads the header sum; E_LEN if `n > 24` (41_record.md R65). -/
def execBegin (n : Byte) (s : State) : Host.Outcome State Fault Refusal :=
  accept (.beginRec n) (fun s => if lengthLegal n then .ok (openRecord n s) else .error .len) s

/-- DATA adds one payload byte to the checksum; E_OVR if the record is full (41_record.md R66). -/
def execData (b : Byte) (s : State) : Host.Outcome State Fault Refusal := accept (.data b) (takePayload [b]) s

/-- DATA2 adds two payload bytes, `b0` the earlier; E_OVR as a whole if fewer than two remain (41_record.md R67). -/
def execData2 (b0 b1 : Byte) (s : State) : Host.Outcome State Fault Refusal :=
  accept (.data2 b0 b1) (takePayload [b0, b1]) s

/-- END closes the record: it latches the record result, whose address is the cursor before the advance, and advances the
cursor and the total; E_UND if payload is missing (41_record.md R68). -/
def execEnd (s : State) : Host.Outcome State Fault Refusal :=
  accept .endRec
    (fun s => if complete s then .ok (advance (latchResult s.len s.addr s.csum s)) else .error .und) s

end Sys2Proof.Machine
end

