-- ==== Sys2Proof/Machine/RunControl.lean ====
section
/-! DEFINITION. The run control commands NOP and START (40_run_control.md). -/

namespace Sys2Proof.Machine

/-- NOP does nothing and is legal in every phase (40_run_control.md R60). -/
def execNop (s : State) : Host.Outcome State Fault Refusal := accept .nop (fun s => .ok s) s

/-- START begins an encoding run at `a16` (40_run_control.md R61). -/
def execStart (a16 : Half) (s : State) : Host.Outcome State Fault Refusal :=
  accept (.start a16) (fun s => .ok (startRun a16 s)) s

end Sys2Proof.Machine
end

