-- ==== Sys2Proof/Machine/Terminator.lean ====
section
/-! DEFINITION. The terminator command TERM (42_terminator.md). -/

namespace Sys2Proof.Machine

/-- TERM produces the terminator record from the run's total byte count; its checksum is `H(0, TOTAL)`, and the cursor does
not advance (42_terminator.md R79, R80). -/
def execTerm (s : State) : Host.Outcome State Fault Refusal :=
  accept .term
    (fun s => .ok (enterDone (headerSum 0#8 s.total) (latchResult 0#8 s.total (headerSum 0#8 s.total) s))) s

end Sys2Proof.Machine
end

