-- ==== Sys2Proof/Machine/Dispatch.lean ====
section
/-! DEFINITION. One accepted, decoded command: each constructor of Instr calls its meaning (30_encoding.md R56). -/

namespace Sys2Proof.Machine

def exec (i : Instr) (s : State) : Host.Outcome State Fault Refusal :=
  match i with
  | .nop => Sys2Proof.Machine.execNop s
  | .start a16 => Sys2Proof.Machine.execStart a16 s
  | .beginRec n => Sys2Proof.Machine.execBegin n s
  | .data b => Sys2Proof.Machine.execData b s
  | .data2 b0 b1 => Sys2Proof.Machine.execData2 b0 b1 s
  | .endRec => Sys2Proof.Machine.execEnd s
  | .term => Sys2Proof.Machine.execTerm s

end Sys2Proof.Machine
end

