-- ==== Sys2Proof/Machine/Clock.lean ====
section
/-! DEFINITION. What one rising edge of `clk` does with the sample of the pins, and how the host's commands stand on the pins
(30_encoding.md R56; 70_reset_and_hazards.md R98, R102). -/

namespace Sys2Proof.Machine

/-- One accepted command word: `exec(S, w)` of 30_encoding.md R56. While halted nothing happens; an illegal word raises E_ILL
before the phase is looked at (60_exceptions.md R84, R88); a decoded command runs. -/
def acceptWord (w : CmdWord) (s : State) : Host.Outcome State Fault Refusal :=
  if halted s then .next s
  else
    match decode s.cfg.termEn w with
    | .error _ => .next (raise .ill w s)
    | .ok i => exec i s

/-- One rising edge with the pins at `e` (70_reset_and_hazards.md R102): reset wins over a command (R98), and `cmd` is not
looked at when `cmd_valid` = 0 or `rst` = 1. -/
def onEdge (e : Edge) (s : State) : Host.Outcome State Fault Refusal :=
  if e.rst then .next (applyReset s)
  else if e.cmdValid then acceptWord e.cmd s
  else .next s

/-- The pins carry the command word `w` (10_state.md R27). -/
def Edge.word (w : CmdWord) : Edge := { rst := false, cmdValid := true, cmd := w }

/-- The pins carry the command `i` (10_state.md R27). -/
def Edge.command (i : Instr) : Edge := Edge.word (encode i)

/-- The pins of an idle edge, with anything on `cmd` (70_reset_and_hazards.md R102). -/
def Edge.idle (anything : CmdWord) : Edge := { rst := false, cmdValid := false, cmd := anything }

/-- The pins of a reset edge, with anything on `cmd_valid` and `cmd` (70_reset_and_hazards.md R98). -/
def Edge.reset (valid : Bool) (anything : CmdWord) : Edge := { rst := true, cmdValid := valid, cmd := anything }

/-- Whether the host's word at the next edge needs an instance with TERM_EN = 1 to be a command at all: TERM's word
(30_encoding.md R52; log 4). -/
def needsTermEn (w : CmdWord) : Bool := decide (decode true w = .ok .term)

/-- `s` with the word `w` on the pins at the next edge; the later edges stay (log 2). -/
def placeWord (w : CmdWord) (s : State) : State := s.withInputs (Edge.word w :: s.inputs.tail)

/-- `s` on an instance with TERM_EN = 1 if `w` is TERM's word, and `s` otherwise (log 4). -/
def enableFor (w : CmdWord) (s : State) : State :=
  { s with cfg := { s.cfg with termEn := s.cfg.termEn || needsTermEn w } }

end Sys2Proof.Machine
end

