-- ==== Sys2Proof/Machine/Step.lean ====
section
/-! DEFINITION. One step: one rising edge of `clk` (70_reset_and_hazards.md R102). -/

namespace Sys2Proof.Machine

/-- The block steps once per rising edge: it samples the pins the host drives at this edge and acts on them
(70_reset_and_hazards.md R102). Where the list of samples has ended the edge is idle (log 1). -/
def step (s : State) : Host.Outcome State Fault Refusal :=
  match s.inputs with
  | [] => .next s
  | e :: later => Sys2Proof.Machine.onEdge e (s.withInputs later)

/-- `s` with the table's word `w` on the `cmd` port at the next edge with `cmd_valid` = 1 and `rst` = 0, so that the very next
step runs it (log 2). The instance has TERM_EN = 1 if the word is TERM's, since no other instance has that
instruction (log 4). -/
def State.withFetchWord (s : State) (nbits w : Nat) : State :=
  Sys2Proof.Machine.enableFor (tableWord nbits w) (Sys2Proof.Machine.placeWord (tableWord nbits w) s)

end Sys2Proof.Machine
end

