-- ==== Sys2Proof/Machine/Pseudo.lean ====
section
/-! DEFINITION. The pseudo-instructions RECORD, RECORDP, ENCODE and ENCODE.T, as the commands they expand to
(30_encoding.md R57, R58). They are no words of the block: a host, or an assembler for it, writes the expansion. -/

namespace Sys2Proof.Machine

/-- The length operand of BEGIN for the payload `bs` of a chunk of at most 24 bytes (30_encoding.md R57). -/
def chunkLength (bs : List Byte) : Byte := BitVec.ofNat 8 bs.length

/-- `DATA b_k` for each byte in order (30_encoding.md R57). -/
def dataEach (bs : List Byte) : List Instr := bs.map Instr.data

/-- `DATA2 b_(2j), b_(2j+1)` for each pair in order, then `DATA` for the last byte of an odd count (30_encoding.md R57). -/
def dataPairs : List Byte → List Instr
  | [] => []
  | [b] => [.data b]
  | b0 :: b1 :: rest => .data2 b0 b1 :: dataPairs rest

/-- The commands of one record with payload `bs`, delivered by the commands `payload`. -/
def recordBy (bs : List Byte) (payload : List Instr) : List Instr :=
  .beginRec (chunkLength bs) :: payload ++ [.endRec]

/-- `RECORD b_0, ..., b_(n-1)` (30_encoding.md R57). -/
def recordCmds (bs : List Byte) : List Instr := recordBy bs (dataEach bs)

/-- `RECORDP b_0, ..., b_(n-1)`, the same record, packed (30_encoding.md R57). -/
def recordpCmds (bs : List Byte) : List Instr := recordBy bs (dataPairs bs)

/-- The first `count` chunks of 24 bytes of `bs`, or fewer if `bs` ends; no chunk is empty (30_encoding.md R58). -/
def chunksUpTo : Nat → List Byte → List (List Byte)
  | 0, _ => []
  | _ + 1, [] => []
  | count + 1, b :: bs => (b :: bs).take maxLen :: chunksUpTo count ((b :: bs).drop maxLen)

/-- The chunks `c_i = b_(24i) ... b_(min(24i+23, N-1))` (30_encoding.md R58); there are at most as many as bytes. -/
def chunks (bs : List Byte) : List (List Byte) := chunksUpTo bs.length bs

/-- `ENCODE a, b_0, ..., b_(N-1)`: `START a`, then `RECORD c_i` for each chunk; no record for N = 0 (30_encoding.md R58). -/
def encodeRun (a : Half) (bs : List Byte) : List Instr := .start a :: (chunks bs).flatMap recordCmds

/-- `ENCODE.T a, b_0, ...`: the same with TERM appended; it needs an instance with TERM_EN = 1 (30_encoding.md R58). -/
def encodeRunT (a : Half) (bs : List Byte) : List Instr := encodeRun a bs ++ [.term]

end Sys2Proof.Machine
end

