-- ==== Sys2Proof/Machine/Assembler.lean ====
section
/-! DEFINITION. The assembler syntax of 30_encoding.md R55 and R57, R58, as a function on characters. What R55 leaves open (letter
case, what counts as a blank, what a refused line does to the rest of its program) is log 11. -/

namespace Sys2Proof.Machine

/-- A piece of a line: a mnemonic or a number, or the comma between operands. -/
inductive Token where
  | word (cs : List Char)
  | comma
deriving DecidableEq, Repr

/-- The blanks that separate pieces: space, tab and carriage return (log 11). -/
def isBlank (c : Char) : Bool := c.toNat == 32 || c.toNat == 9 || c.toNat == 13

/-- The word read so far, if any, in front of the pieces after it. -/
def flushWord (acc : List Char) (rest : List Token) : List Token := if acc = [] then rest else .word acc :: rest

/-- The pieces of a line, `acc` being the word read so far; `;` starts a comment that runs to the end of the line
(30_encoding.md R55). -/
def tokens (acc : List Char) : List Char → List Token
  | [] => flushWord acc []
  | c :: cs =>
    if c = ';' then flushWord acc []
    else if c = ',' then flushWord acc (.comma :: tokens [] cs)
    else if isBlank c then flushWord acc (tokens [] cs)
    else tokens (acc ++ [c]) cs

/-- The value of a hexadecimal digit, in either letter case (log 11). -/
def digitValue (c : Char) : Option Nat :=
  let n := c.toNat
  if 48 ≤ n ∧ n ≤ 57 then some (n - 48)
  else if 65 ≤ n ∧ n ≤ 70 then some (n - 55)
  else if 97 ≤ n ∧ n ≤ 102 then some (n - 87)
  else none

/-- The value of the digits `cs` in `base`, after the digits worth `acc`. -/
def digitsFrom (base acc : Nat) : List Char → Option Nat
  | [] => some acc
  | c :: cs =>
    match digitValue c with
    | some d => if d < base then digitsFrom base (acc * base + d) cs else none
    | none => none

/-- A decimal integer or a `0x` hexadecimal integer (30_encoding.md R55). -/
def numeral : List Char → Option Nat
  | [] => none
  | ['0', 'x'] => none
  | '0' :: 'x' :: cs => digitsFrom 16 0 cs
  | cs => digitsFrom 10 0 cs

/-- The numeric operands of a line, separated by commas (30_encoding.md R55). -/
def operandList : List Token → Option (List Nat)
  | [] => some []
  | [.word cs] => (numeral cs).map (fun n => [n])
  | .word cs :: .comma :: t :: rest =>
    match numeral cs, operandList (t :: rest) with
    | some n, some ns => some (n :: ns)
    | _, _ => none
  | _ => none

/-- The operand `n` in a field of `k` bits; a number that does not fit is refused (30_encoding.md R55). -/
def fitField (k n : Nat) : Option (BitVec k) := if n < 2 ^ k then some (BitVec.ofNat k n) else none

/-- The operands `ns` as payload bytes, refused if one does not fit (30_encoding.md R55, R57). -/
def byteOperands : List Nat → Option (List Byte)
  | [] => some []
  | n :: ns =>
    match fitField 8 n, byteOperands ns with
    | some b, some bs => some (b :: bs)
    | _, _ => none

/-- A record pseudo-instruction's operands: at most 24 bytes (30_encoding.md R57). -/
def recordOperands (ns : List Nat) : Option (List Byte) := if ns.length ≤ maxLen then byteOperands ns else none

/-- The mnemonics of 30_encoding.md R55, R57 and R58. -/
inductive Mnemonic where
  | nop | start | beginRec | data | data2 | endRec | term | record | recordp | encode | encodeT
deriving DecidableEq, Repr

/-- Reading a mnemonic, in the letter case of the spec (log 11). -/
def mnemonicOf : List Char → Option Mnemonic
  | ['N', 'O', 'P'] => some .nop
  | ['S', 'T', 'A', 'R', 'T'] => some .start
  | ['B', 'E', 'G', 'I', 'N'] => some .beginRec
  | ['D', 'A', 'T', 'A'] => some .data
  | ['D', 'A', 'T', 'A', '2'] => some .data2
  | ['E', 'N', 'D'] => some .endRec
  | ['T', 'E', 'R', 'M'] => some .term
  | ['R', 'E', 'C', 'O', 'R', 'D'] => some .record
  | ['R', 'E', 'C', 'O', 'R', 'D', 'P'] => some .recordp
  | ['E', 'N', 'C', 'O', 'D', 'E'] => some .encode
  | ['E', 'N', 'C', 'O', 'D', 'E', '.', 'T'] => some .encodeT
  | _ => none

/-- The commands of a mnemonic with its operands: the rows of 30_encoding.md R55 and the expansions of R57 and R58; a line
whose operands do not fit is refused. BEGIN takes any 8-bit length, so that the E_LEN fault can be written down. -/
def lineCommands : Mnemonic → List Nat → Option (List Instr)
  | .nop, [] => some [.nop]
  | .start, [a] => (fitField 16 a).map (fun v => [.start v])
  | .beginRec, [n] => (fitField 8 n).map (fun v => [.beginRec v])
  | .data, [b] => (fitField 8 b).map (fun v => [.data v])
  | .data2, [b0, b1] =>
    match fitField 8 b0, fitField 8 b1 with
    | some v0, some v1 => some [.data2 v0 v1]
    | _, _ => none
  | .endRec, [] => some [.endRec]
  | .term, [] => some [.term]
  | .record, bs => (recordOperands bs).map recordCmds
  | .recordp, bs => (recordOperands bs).map recordpCmds
  | .encode, a :: bs =>
    match fitField 16 a, byteOperands bs with
    | some v, some vs => some (encodeRun v vs)
    | _, _ => none
  | .encodeT, a :: bs =>
    match fitField 16 a, byteOperands bs with
    | some v, some vs => some (encodeRunT v vs)
    | _, _ => none
  | _, _ => none

/-- One line of a program: its commands, none for a blank or comment line, or a refusal (30_encoding.md R55). -/
def assembleLine (line : List Char) : Option (List Instr) :=
  match tokens [] line with
  | [] => some []
  | .word m :: rest =>
    match mnemonicOf m, operandList rest with
    | some mn, some ns => lineCommands mn ns
    | _, _ => none
  | .comma :: _ => none

/-- A program given as its lines, one command a line (30_encoding.md R55). DESIGN CHOICE (log 11): R55 says only that the assembler
refuses a line; what becomes of the program's other lines it leaves open, and here one refused line refuses the whole
program. -/
def assembleLines : List (List Char) → Option (List Instr)
  | [] => some []
  | l :: ls =>
    match assembleLine l, assembleLines ls with
    | some is, some js => some (is ++ js)
    | _, _ => none

/-- The lines of a text. -/
def splitLines (acc : List Char) : List Char → List (List Char)
  | [] => [acc]
  | c :: cs => if c.toNat = 10 then acc :: splitLines [] cs else splitLines (acc ++ [c]) cs

/-- A program's command words (30_encoding.md R55); none at all if one of its lines is refused (DESIGN CHOICE, log 11). -/
def assemble (text : String) : Option (List CmdWord) :=
  (assembleLines (splitLines [] text.toList)).map (List.map encode)

end Sys2Proof.Machine
end

