-- ==== Sys2Proof/Safety.lean ====
section
/-! DEFINITION. What claims speak of: runs of many edges, the states a run from reset reaches, the invariant of 10_state.md R30,
and the payload a list of commands delivers. -/

namespace Sys2Proof.Machine

/-- `k` rising edges from `s` (00_scope.md R11; 70_reset_and_hazards.md R102). -/
def run (k : Nat) (s : State) : Host.Outcome State Fault Refusal := Host.Core.run Sys2Proof.core k s

/-- `s` with the edges `es` about to come before those that `s` already has. -/
def State.feedEdges (es : List Edge) (s : State) : State := s.withInputs (es ++ s.inputs)

/-- `s` with the host about to present the commands `is`, one per edge, before the edges that `s` already has. -/
def State.feed (is : List Instr) (s : State) : State := s.feedEdges (is.map Edge.command)

/-- The states that some run from a reset reaches, on some instance and under some inputs (10_state.md R30). -/
def Reachable (s : State) : Prop :=
  ∃ (cfg : Config) (inputs : List Edge) (k : Nat), run k (State.resetOf cfg inputs) = .next s

/-- No error has been recorded: a run is safe as long as this holds (60_exceptions.md R88). -/
abbrev State.noError (s : State) : Prop := s.err = .none

/-- The bounds of 10_state.md R30, as properties of one state. -/
abbrev State.Bounds (s : State) : Prop :=
  s.len.toNat ≤ 24 ∧ s.cnt.toNat ≤ s.len.toNat ∧ s.phase ≠ .unused ∧ s.err ≠ .reserved6 ∧ s.err ≠ .reserved7 ∧
    s.outLen.toNat ≤ 24 ∧ s.csum.toNat ≤ 0x19FE ∧ (status s).extractLsb' 13 3 = 0#3

/-- The inductive form of `Bounds`: while a record is open, CSUM is at most LEN, the two address bytes and 0xFF for each byte
accumulated so far (the reason 10_state.md R30 gives for the CSUM bound). -/
abbrev State.Inv (s : State) : Prop :=
  s.Bounds ∧ (s.phase = .recording → s.csum.toNat ≤ s.len.toNat + 0x1FE + 0xFF * s.cnt.toNat)

/-- The clauses (a) to (e) of 60_exceptions.md R84, in that rule's own terms and not in the decoder's. -/
abbrev IllegalByClauses (termEn : Bool) (w : CmdWord) : Prop :=
  w.extractLsb' 16 4 ≠ 0#4 ∨
  (7 ≤ (w.extractLsb' 20 4).toNat ∧ (w.extractLsb' 20 4).toNat ≤ 15) ∨
  ((w.extractLsb' 20 4 = 0x0#4 ∨ w.extractLsb' 20 4 = 0x4#4 ∨ w.extractLsb' 20 4 = 0x5#4) ∧
    w.extractLsb' 0 16 ≠ 0#16) ∨
  ((w.extractLsb' 20 4 = 0x2#4 ∨ w.extractLsb' 20 4 = 0x3#4) ∧ w.extractLsb' 8 8 ≠ 0#8) ∨
  (w.extractLsb' 20 4 = 0x5#4 ∧ termEn = false)

/-- The cases of E_SEQ as 60_exceptions.md R85 lists them, with PHASE encoding 3 as 30_encoding.md R59 defines it; written from
those lists and not from the model's table `legal`. -/
def outOfPhase (i : Instr) (p : Phase) : Bool :=
  match i with
  | .nop => false
  | .start _ => decide (p = .recording ∨ p = .unused)
  | .beginRec _ => decide (p = .recording ∨ p = .done ∨ p = .unused)
  | .data _ => decide (p = .idle ∨ p = .done ∨ p = .unused)
  | .data2 _ _ => decide (p = .idle ∨ p = .done ∨ p = .unused)
  | .endRec => decide (p = .idle ∨ p = .done ∨ p = .unused)
  | .term => decide (p = .recording ∨ p = .done ∨ p = .unused)

/-- The payload bytes a command delivers. -/
def payloadOf : Instr → List Byte
  | .data b => [b]
  | .data2 b0 b1 => [b0, b1]
  | .nop => []
  | .start _ => []
  | .beginRec _ => []
  | .endRec => []
  | .term => []

/-- The commands that may stand inside a record between its BEGIN and its END: DATA, DATA2 and NOP (30_encoding.md R59). -/
def isInner : Instr → Bool
  | .data _ => true
  | .data2 _ _ => true
  | .nop => true
  | .start _ => false
  | .beginRec _ => false
  | .endRec => false
  | .term => false

/-- The payload bytes a list of commands delivers, in order. -/
def delivered (is : List Instr) : List Byte := is.flatMap payloadOf

/-- A list of inner commands that delivers a legal record's payload. -/
abbrev LegalPayload (is : List Instr) : Prop := is.all isInner = true ∧ (delivered is).length ≤ maxLen

/-- The commands of the record whose payload the inner commands `is` deliver. -/
def recordOf (is : List Instr) : List Instr := recordBy (delivered is) is

/-- The sum of payload bytes as a number (41_record.md R69). -/
def byteSum (bs : List Byte) : Nat := (bs.map BitVec.toNat).sum

/-- The number of payload bytes of a list of records, each given by its inner commands (41_record.md R71, R72). -/
def payloadCount (rs : List (List Instr)) : Nat := (rs.map (fun is => (delivered is).length)).sum

/-- The edge does something: it is neither idle nor a NOP (70_reset_and_hazards.md R109). -/
def isActive (e : Edge) : Bool := e.rst || (e.cmdValid && e.cmd != 0#24)

end Sys2Proof.Machine
end

