-- ==== Sys2Proof/Certificates/Slice0/Obligations.lean ====
section
/-! DEFINITION. The statements for the provers, from the numbered rules of spec/. Next states are written out as record updates of
the state before, so each such statement is also the frame of its command: every register, the parameters and the host's
later edges are unchanged unless the update names them. The block has no memory (20_memory.md R36), so there is no byte
of memory to frame. -/

open Sys2Proof Sys2Proof.Machine

/-! ### The commands, one by one -/

/-- 40_run_control.md R60: NOP does nothing in every state, is legal in every phase, and is the same as an idle edge; a word with
OP = 0 and any other bit set is illegal. -/
def Obligations.NopDoesNothing : Prop :=
  (∀ s : State, exec .nop s = .next s) ∧
  encode .nop = 0x000000#24 ∧
  (∀ p : Phase, legal .nop p = true) ∧
  (∀ (w : CmdWord) (s : State), s.err = .none → w.extractLsb' 20 4 = 0x0#4 → w ≠ 0x000000#24 →
    acceptWord w s = .next { s with err := .ill, fcmd := w }) ∧
  (∀ (s : State) (c : CmdWord) (later : List Edge),
    step (s.withInputs (⟨false, true, 0x000000#24⟩ :: later)) = step (s.withInputs (⟨false, false, c⟩ :: later)))

/-- 40_run_control.md R61: START in IDLE or DONE writes the run's registers, in REC it raises E_SEQ, and its word with RSV != 0 is
illegal. -/
def Obligations.StartBeginsRun : Prop :=
  (∀ (a : Half) (s : State), s.err = .none → (s.phase = .idle ∨ s.phase = .done) →
    exec (.start a) s = .next { s with addr := a, total := 0#16, csum := 0#16, len := 0#8, cnt := 0#5,
                                       phase := .idle, outValid := false }) ∧
  (∀ (a : Half) (s : State), s.err = .none → s.phase = .recording →
    exec (.start a) s = .next { s with err := .seq, fcmd := 0x100000#24 ||| a.setWidth 24 }) ∧
  (∀ a : Half, encode (.start a) = 0x100000#24 ||| a.setWidth 24) ∧
  (∀ (w : CmdWord) (s : State), s.err = .none → w.extractLsb' 20 4 = 0x1#4 → w.extractLsb' 16 4 ≠ 0#4 →
    acceptWord w s = .next { s with err := .ill, fcmd := w })

/-- 41_record.md R65: BEGIN with its writes and its exceptions in priority order. -/
def Obligations.BeginOpensRecord : Prop :=
  (∀ (n : Byte) (s : State), s.err = .none → s.phase = .idle → n.toNat ≤ 24 →
    exec (.beginRec n) s =
      .next { s with len := n, cnt := 0#5,
                     csum := BitVec.ofNat 16 (n.toNat + s.addr.toNat / 256 + s.addr.toNat % 256),
                     phase := .recording, outValid := false }) ∧
  (∀ (n : Byte) (s : State), s.err = .none → s.phase = .idle → 24 < n.toNat →
    exec (.beginRec n) s = .next { s with err := .len, fcmd := 0x200000#24 ||| n.setWidth 24 }) ∧
  (∀ (n : Byte) (s : State), s.err = .none → s.phase ≠ .idle →
    exec (.beginRec n) s = .next { s with err := .seq, fcmd := 0x200000#24 ||| n.setWidth 24 }) ∧
  (∀ n : Byte, encode (.beginRec n) = 0x200000#24 ||| n.setWidth 24) ∧
  (∀ (w : CmdWord) (s : State), s.err = .none → w.extractLsb' 20 4 = 0x2#4 →
    (w.extractLsb' 8 8 ≠ 0#8 ∨ w.extractLsb' 16 4 ≠ 0#4) → acceptWord w s = .next { s with err := .ill, fcmd := w })

/-- 41_record.md R66: DATA with its writes and its exceptions in priority order. Basis derived: where LEN is above 31, which no
run reaches, it is the model's choice that CNT + 1 is taken in CNT's 5 bits (log 7, DEDUCED); R66 does not say so. -/
def Obligations.DataAddsOneByte : Prop :=
  (∀ (b : Byte) (s : State), s.err = .none → s.phase = .recording → s.cnt.toNat + 1 ≤ s.len.toNat →
    exec (.data b) s = .next { s with csum := BitVec.ofNat 16 (s.csum.toNat + b.toNat), cnt := s.cnt + 1#5 }) ∧
  (∀ (b : Byte) (s : State), s.err = .none → s.phase = .recording → s.len.toNat < s.cnt.toNat + 1 →
    exec (.data b) s = .next { s with err := .ovr, fcmd := 0x300000#24 ||| b.setWidth 24 }) ∧
  (∀ (b : Byte) (s : State), s.err = .none → s.phase ≠ .recording →
    exec (.data b) s = .next { s with err := .seq, fcmd := 0x300000#24 ||| b.setWidth 24 }) ∧
  (∀ b : Byte, encode (.data b) = 0x300000#24 ||| b.setWidth 24) ∧
  (∀ (w : CmdWord) (s : State), s.err = .none → w.extractLsb' 20 4 = 0x3#4 →
    (w.extractLsb' 8 8 ≠ 0#8 ∨ w.extractLsb' 16 4 ≠ 0#4) → acceptWord w s = .next { s with err := .ill, fcmd := w })

/-- 41_record.md R67: DATA2 with its writes and its exceptions in priority order; it never adds its first byte alone.
Basis derived: where LEN is above 31, which no run reaches, it is the model's choice that CNT + 2 is taken in CNT's 5 bits
(log 7, DEDUCED); R67 does not say so. -/
def Obligations.DataTwoAddsTwoBytes : Prop :=
  (∀ (b0 b1 : Byte) (s : State), s.err = .none → s.phase = .recording → s.cnt.toNat + 2 ≤ s.len.toNat →
    exec (.data2 b0 b1) s =
      .next { s with csum := BitVec.ofNat 16 (s.csum.toNat + b0.toNat + b1.toNat), cnt := s.cnt + 2#5 }) ∧
  (∀ (b0 b1 : Byte) (s : State), s.err = .none → s.phase = .recording → s.len.toNat < s.cnt.toNat + 2 →
    exec (.data2 b0 b1) s =
      .next { s with err := .ovr, fcmd := 0x600000#24 ||| b0.setWidth 24 <<< 8 ||| b1.setWidth 24 }) ∧
  (∀ (b0 b1 : Byte) (s : State), s.err = .none → s.phase ≠ .recording →
    exec (.data2 b0 b1) s =
      .next { s with err := .seq, fcmd := 0x600000#24 ||| b0.setWidth 24 <<< 8 ||| b1.setWidth 24 }) ∧
  (∀ b0 b1 : Byte, encode (.data2 b0 b1) = 0x600000#24 ||| b0.setWidth 24 <<< 8 ||| b1.setWidth 24) ∧
  (∀ (w : CmdWord) (s : State), s.err = .none → w.extractLsb' 20 4 = 0x6#4 → w.extractLsb' 16 4 ≠ 0#4 →
    acceptWord w s = .next { s with err := .ill, fcmd := w })

/-- 41_record.md R68: END with its writes and its exceptions in priority order; OUT_ADDR is the cursor before the advance, and the
advances wrap modulo 65536. -/
def Obligations.EndClosesRecord : Prop :=
  (∀ s : State, s.err = .none → s.phase = .recording → s.cnt.toNat = s.len.toNat →
    exec .endRec s =
      .next { s with outLen := s.len, outAddr := s.addr, outCsum := s.csum, outValid := true,
                     addr := BitVec.ofNat 16 (s.addr.toNat + s.len.toNat),
                     total := BitVec.ofNat 16 (s.total.toNat + s.len.toNat), phase := .idle }) ∧
  (∀ s : State, s.err = .none → s.phase = .recording → s.cnt.toNat ≠ s.len.toNat →
    exec .endRec s = .next { s with err := .und, fcmd := 0x400000#24 }) ∧
  (∀ s : State, s.err = .none → s.phase ≠ .recording →
    exec .endRec s = .next { s with err := .seq, fcmd := 0x400000#24 }) ∧
  encode .endRec = 0x400000#24 ∧
  (∀ (w : CmdWord) (s : State), s.err = .none → w.extractLsb' 20 4 = 0x4#4 → w.extractLsb' 0 20 ≠ 0#20 →
    acceptWord w s = .next { s with err := .ill, fcmd := w })

/-- 42_terminator.md R79: TERM with its writes and its exceptions in priority order; on an instance with TERM_EN = 0 its word is
illegal in every phase. -/
def Obligations.TermProducesTerminator : Prop :=
  (∀ s : State, s.err = .none → s.cfg.termEn = true → s.phase = .idle →
    exec .term s =
      .next { s with csum := BitVec.ofNat 16 (s.total.toNat / 256 + s.total.toNat % 256), outLen := 0#8,
                     outAddr := s.total,
                     outCsum := BitVec.ofNat 16 (s.total.toNat / 256 + s.total.toNat % 256),
                     outValid := true, phase := .done }) ∧
  (∀ s : State, s.err = .none → s.cfg.termEn = true → s.phase ≠ .idle →
    exec .term s = .next { s with err := .seq, fcmd := 0x500000#24 }) ∧
  (∀ s : State, s.err = .none → s.cfg.termEn = false →
    acceptWord 0x500000#24 s = .next { s with err := .ill, fcmd := 0x500000#24 }) ∧
  encode .term = 0x500000#24 ∧
  (∀ (w : CmdWord) (s : State), s.err = .none → w.extractLsb' 20 4 = 0x5#4 → w.extractLsb' 0 20 ≠ 0#20 →
    acceptWord w s = .next { s with err := .ill, fcmd := w })

/-- 41_record.md R64: the header sum, and its bound for a legal length. -/
def Obligations.HeaderSumFormula : Prop :=
  ∀ (n : Byte) (a : Half),
    headerSum n a = BitVec.ofNat 16 (n.toNat + a.toNat / 256 + a.toNat % 256) ∧
    (n.toNat ≤ 24 → (headerSum n a).toNat ≤ 0x216)

/-- 42_terminator.md R82: after TERM the phase is DONE, where only NOP and START run and every other command raises E_SEQ. -/
def Obligations.DoneAcceptsOnlyNopAndStart : Prop :=
  (∀ s : State, s.err = .none → s.cfg.termEn = true → s.phase = .idle → ∃ t, exec .term s = .next t ∧ t.phase = .done) ∧
  (∀ s : State, s.err = .none → s.cfg.termEn = true → s.phase = .done →
    exec .nop s = .next s ∧
    (∀ a : Half, ∃ t, exec (.start a) s = .next t ∧ t.err = .none ∧ t.phase = .idle ∧ t.addr = a ∧ t.total = 0#16) ∧
    (∀ i : Instr, i ≠ .nop → (∀ a : Half, i ≠ .start a) →
      exec i s = .next { s with err := .seq, fcmd := encode i }))

/-! ### Encoding -/

/-- Decode and encode agree: every command of an instance is read back from its word with every operand (30_encoding.md R49, R54). -/
def Obligations.DecodeEncodeRoundTrip : Prop :=
  ∀ (termEn : Bool) (i : Instr), i.wellFormed termEn = true → decode termEn (encode i) = .ok i

/-- A word has one meaning: whatever a word decodes to, it is that command's word, and the instance has the command
(30_encoding.md R49, R52). -/
def Obligations.DecodedWordIsItsEncoding : Prop :=
  ∀ (termEn : Bool) (w : CmdWord) (i : Instr), decode termEn w = .ok i → encode i = w ∧ i.wellFormed termEn = true

/-- The words of the spec's own examples decode to the commands they stand for (30_encoding.md R49; 95_test_vectors.md). -/
def Obligations.DecodeReadsSampleWords : Prop :=
  decode false 0x000000#24 = .ok .nop ∧
  decode false 0x101234#24 = .ok (.start 0x1234#16) ∧
  decode false 0x200018#24 = .ok (.beginRec 24#8) ∧
  decode false 0x3000AA#24 = .ok (.data 0xAA#8) ∧
  decode false 0x608081#24 = .ok (.data2 0x80#8 0x81#8) ∧
  decode false 0x400000#24 = .ok .endRec ∧
  decode true 0x500000#24 = .ok .term

/-- 60_exceptions.md R84: a word is illegal exactly under its clauses (a) to (e); then it raises E_ILL whatever the phase, and
otherwise it runs the command it decodes to. -/
def Obligations.IllegalWordRaisesEIll : Prop :=
  ∀ (w : CmdWord) (s : State), s.err = .none →
    (IllegalByClauses s.cfg.termEn w →
      (∃ r, decode s.cfg.termEn w = .error r) ∧ acceptWord w s = .next { s with err := .ill, fcmd := w }) ∧
    (¬ IllegalByClauses s.cfg.termEn w → ∃ i, decode s.cfg.termEn w = .ok i ∧ acceptWord w s = exec i s)

/-- The operand ranges of the assembler: an operand that fits its field gives the command, one that does not is refused
(30_encoding.md section 4, Assembler syntax). -/
def Obligations.AssemblerRefusesOperandsThatDoNotFit : Prop :=
  (lineCommands .nop [] = some [.nop] ∧ lineCommands .endRec [] = some [.endRec] ∧ lineCommands .term [] = some [.term]) ∧
  (∀ a : Nat, lineCommands .start [a] = if a ≤ 0xFFFF then some [.start (BitVec.ofNat 16 a)] else none) ∧
  (∀ n : Nat, lineCommands .beginRec [n] = if n ≤ 0xFF then some [.beginRec (BitVec.ofNat 8 n)] else none) ∧
  (∀ b : Nat, lineCommands .data [b] = if b ≤ 0xFF then some [.data (BitVec.ofNat 8 b)] else none) ∧
  (∀ b0 b1 : Nat, lineCommands .data2 [b0, b1] =
    if b0 ≤ 0xFF ∧ b1 ≤ 0xFF then some [.data2 (BitVec.ofNat 8 b0) (BitVec.ofNat 8 b1)] else none)

/-! ### Errors and the halt -/

/-- 60_exceptions.md R87: the fault action writes ERR and FCMD and nothing else, and the host sees the error on the ports. -/
def Obligations.FaultActionWritesErrAndFcmd : Prop :=
  ∀ (code : ErrCode) (w : CmdWord) (s : State),
    raise code w s = { s with err := code, fcmd := w } ∧
    (code ≠ .none → (outputs (raise code w s)).errO = 1#1 ∧
      (outputs (raise code w s)).statusO.extractLsb' 4 3 = errBits code ∧ (outputs (raise code w s)).fcmdO = w)

/-- 60_exceptions.md R90: an accepted word that changes ERR changes nothing else but FCMD, which takes that word, and no later word
has any effect; so the record result stays readable. -/
def Obligations.FaultingWordIsPrecise : Prop :=
  ∀ (w : CmdWord) (s t : State), acceptWord w s = .next t → t.err ≠ s.err →
    t = { s with err := t.err, fcmd := w } ∧ ∀ later : CmdWord, acceptWord later t = .next t

/-- 30_encoding.md R59 and 60_exceptions.md R85: a decoded command raises E_SEQ exactly in the phases that the table marks SEQ. -/
def Obligations.SequenceErrorExactlyOutOfPhase : Prop :=
  ∀ (i : Instr) (s : State), s.err = .none → i.wellFormed s.cfg.termEn = true →
    if outOfPhase i s.phase = true
    then exec i s = .next { s with err := .seq, fcmd := encode i }
    else ∃ t, exec i s = .next t ∧ t.err ≠ .seq

/-- 60_exceptions.md R89: the order of the errors. Halted: nothing changes; then E_ILL; then E_SEQ; then the command's own operand
error and no other. -/
def Obligations.ErrorPriority : Prop :=
  ∀ (w : CmdWord) (s t : State), acceptWord w s = .next t →
    (s.err ≠ .none → t = s) ∧
    (s.err = .none → (∃ r, decode s.cfg.termEn w = .error r) → t.err = .ill) ∧
    (∀ i, s.err = .none → decode s.cfg.termEn w = .ok i → legal i s.phase = false → t.err = .seq) ∧
    (∀ i, s.err = .none → decode s.cfg.termEn w = .ok i → legal i s.phase = true →
      t.err = .none ∨
        match i with
        | .nop => False
        | .start _ => False
        | .beginRec _ => t.err = .len
        | .data _ => t.err = .ovr
        | .data2 _ _ => t.err = .ovr
        | .endRec => t.err = .und
        | .term => False)

/-- 60_exceptions.md R88: a halted block ignores every command for as long as no edge resets it, and reset ends the halt. Basis
derived: where `k` goes past the end of the host's edges, the third clause rests on the model's choice that those edges are
idle (log 1, DESIGN CHOICE); R88 does not say so. -/
def Obligations.HaltLastsUntilReset : Prop :=
  (∀ (i : Instr) (s : State), s.err ≠ .none → exec i s = .next s) ∧
  (∀ (w : CmdWord) (s : State), s.err ≠ .none → acceptWord w s = .next s) ∧
  (∀ (k : Nat) (s : State), s.err ≠ .none → (∀ e ∈ s.inputs.take k, e.rst = false) →
    run k s = .next (s.withInputs (s.inputs.drop k))) ∧
  (∀ (s : State) (e : Edge) (later : List Edge), s.inputs = e :: later → e.rst = true →
    ∃ t, step s = .next t ∧ t.err = .none ∧ t.fcmd = 0#24 ∧ t.phase = .idle)

/-- An open record ends only by reset or by its own END; no other edge leaves REC (60_exceptions.md section 3). -/
def Obligations.OpenRecordEndsOnlyByEndOrReset : Prop :=
  ∀ (s t : State) (e : Edge) (later : List Edge), s.inputs = e :: later → s.phase = .recording → step s = .next t →
    t.phase = .recording ∨ e.rst = true ∨
      (e.cmdValid = true ∧ e.cmd = 0x400000#24 ∧ s.cnt.toNat = s.len.toNat ∧ t.phase = .idle ∧
        t.outValid = true ∧ t.outLen = s.len ∧ t.outAddr = s.addr ∧ t.outCsum = s.csum)

/-! ### Reset, the clock and the ports -/

/-- 70_reset_and_hazards.md R97 and R98: at an edge with `rst` = 1 every register takes its reset value, whatever `cmd_valid` and
`cmd` are; the parameters and the later edges stay. -/
def Obligations.ResetEdgeRestoresEveryRegister : Prop :=
  ∀ (s : State) (valid : Bool) (c : CmdWord) (later : List Edge), s.inputs = ⟨true, valid, c⟩ :: later →
    step s = .next { addr := s.cfg.resetAddr, csum := 0#16, len := 0#8, cnt := 0#5, phase := .idle, total := 0#16,
                     outLen := 0#8, outAddr := 0#16, outCsum := 0#16, outValid := false, err := .none,
                     fcmd := 0#24, cfg := s.cfg, inputs := later }

/-- 10_state.md R32: the registers of the machine right after reset, on the default instance, and their relation to the state after
`START RESET_ADDR`: equal apart from the output latches. -/
def Obligations.ResetValues : Prop :=
  State.reset.addr = 0x0200#16 ∧ State.reset.csum = 0#16 ∧ State.reset.len = 0#8 ∧ State.reset.cnt = 0#5 ∧
  State.reset.phase = .idle ∧ State.reset.total = 0#16 ∧ State.reset.outLen = 0#8 ∧ State.reset.outAddr = 0#16 ∧
  State.reset.outCsum = 0#16 ∧ State.reset.outValid = false ∧ State.reset.err = .none ∧ State.reset.fcmd = 0#24 ∧
  (∀ (cfg : Config) (ins : List Edge), (State.resetOf cfg ins).addr = cfg.resetAddr) ∧
  (∀ s t : State, s.err = .none → s.fcmd = 0#24 → (s.phase = .idle ∨ s.phase = .done) →
    exec (.start s.cfg.resetAddr) s = .next t →
    t = { applyReset s with outLen := s.outLen, outAddr := s.outAddr, outCsum := s.outCsum })

/-- A step runs the decoded command: with the word of a command on the port and no reset, step is exec of that command on the
state whose next edge is the one after (70_reset_and_hazards.md section 3; 30_encoding.md section 4). -/
def Obligations.StepRunsDecodedCommand : Prop :=
  ∀ (s : State) (w : CmdWord) (later : List Edge) (i : Instr), s.inputs = ⟨false, true, w⟩ :: later →
    decode s.cfg.termEn w = .ok i → step s = exec i (s.withInputs later)

/-- 70_reset_and_hazards.md R102: what a rising edge does, by `rst` and `cmd_valid`. -/
def Obligations.RisingEdgeByPins : Prop :=
  ∀ (s : State) (e : Edge) (later : List Edge), s.inputs = e :: later →
    (e.rst = true → step s = .next (applyReset (s.withInputs later))) ∧
    (e.rst = false → e.cmdValid = true → step s = acceptWord e.cmd (s.withInputs later)) ∧
    (e.rst = false → e.cmdValid = false → step s = .next (s.withInputs later))

/-- The block never stalls and never refuses (70_reset_and_hazards.md section 3): every edge gives a next state, which keeps the
instance's parameters. That the edge is idle where the list of samples has ended is the model's choice, log 1. -/
def Obligations.EveryEdgeGivesANextState : Prop :=
  ∀ s : State, ∃ t, step s = .next t ∧ t.cfg = s.cfg ∧ t.inputs = s.inputs.tail ∧ (s.inputs = [] → t = s)

/-- The host's interface to the model, a choice of the model (log 2, log 4): a state with a command's word placed runs that command
at the very next step, TERM on an instance with TERM_EN = 1. -/
def Obligations.PlacedWordRunsNext : Prop :=
  ∀ (i : Instr) (s : State),
    step (s.withFetchWord 24 (encode i).toNat) =
      exec i { s with cfg := { s.cfg with termEn := s.cfg.termEn || decide (i = .term) }, inputs := s.inputs.tail }

/-- 10_state.md R26: the fields of STATUS, with the codes of PHASE (R21) and ERR (60_exceptions.md R83). -/
def Obligations.StatusLayout : Prop :=
  ∀ s : State,
    (status s).extractLsb' 0 2 =
      (match s.phase with
       | .idle => 0#2
       | .recording => 1#2
       | .done => 2#2
       | .unused => 3#2) ∧
    (status s).extractLsb' 2 1 = (if s.outValid then 1#1 else 0#1) ∧
    (status s).extractLsb' 3 1 = (if s.err = .none then 0#1 else 1#1) ∧
    (status s).extractLsb' 4 3 =
      (match s.err with
       | .none => 0#3
       | .ill => 1#3
       | .seq => 2#3
       | .len => 3#3
       | .ovr => 4#3
       | .und => 5#3
       | .reserved6 => 6#3
       | .reserved7 => 7#3) ∧
    (status s).extractLsb' 7 1 = (if s.cfg.termEn then 1#1 else 0#1) ∧
    (status s).extractLsb' 8 5 = s.cnt ∧
    (status s).extractLsb' 13 3 = 0#3 ∧
    (status s).extractLsb' 16 8 = s.len

/-- 10_state.md R28: each output port is driven from registers, and no input pin reaches one. -/
def Obligations.PortsShowRegisters : Prop :=
  ∀ s : State,
    (outputs s).cursorO = s.addr ∧ (outputs s).csumO = s.csum ∧ (outputs s).totalO = s.total ∧
    (outputs s).recLenO = s.outLen ∧ (outputs s).recAddrO = s.outAddr ∧ (outputs s).recCsumO = s.outCsum ∧
    (outputs s).recValidO = (if s.outValid then 1#1 else 0#1) ∧ (outputs s).statusO = status s ∧
    (outputs s).errO = (if s.err = .none then 0#1 else 1#1) ∧ (outputs s).fcmdO = s.fcmd ∧
    ∀ ins : List Edge, outputs (s.withInputs ins) = outputs s

/-! ### Frames and invariants -/

/-- The write matrix of 10_state.md section 4: a register changes only under the commands listed for it, a faulting command writes
ERR and FCMD alone, and no command changes a parameter or what the host drives. -/
def Obligations.WriteMatrix : Prop :=
  ∀ (i : Instr) (s t : State), exec i s = .next t →
    (t.addr ≠ s.addr → (∃ a, i = .start a) ∨ i = .endRec) ∧
    (t.csum ≠ s.csum → i ≠ .nop ∧ i ≠ .endRec) ∧
    (t.len ≠ s.len → (∃ a, i = .start a) ∨ ∃ n, i = .beginRec n) ∧
    (t.cnt ≠ s.cnt → i ≠ .nop ∧ i ≠ .endRec ∧ i ≠ .term) ∧
    (t.phase ≠ s.phase → i ≠ .nop ∧ (∀ b, i ≠ .data b) ∧ ∀ b0 b1, i ≠ .data2 b0 b1) ∧
    (t.total ≠ s.total → (∃ a, i = .start a) ∨ i = .endRec) ∧
    ((t.outLen ≠ s.outLen ∨ t.outAddr ≠ s.outAddr ∨ t.outCsum ≠ s.outCsum) → i = .endRec ∨ i = .term) ∧
    (t.outValid ≠ s.outValid → i ≠ .nop ∧ (∀ b, i ≠ .data b) ∧ ∀ b0 b1, i ≠ .data2 b0 b1) ∧
    (t.err ≠ s.err → t = { s with err := t.err, fcmd := encode i }) ∧
    (t.err = s.err → t.fcmd = s.fcmd) ∧
    t.cfg = s.cfg ∧ t.inputs = s.inputs

/-- Every step keeps the inductive invariant behind 10_state.md R30. -/
def Obligations.StepKeepsInvariant : Prop :=
  ∀ s t : State, s.Inv → step s = .next t → t.Inv

/-- The inductive invariant holds right after reset, on every instance and under every input. -/
def Obligations.ResetHasInvariant : Prop :=
  State.reset.Inv ∧ ∀ (cfg : Config) (ins : List Edge), (State.resetOf cfg ins).Inv

/-- 10_state.md R30: the bounds of every state that any run from reset reaches, on any instance and under any inputs. -/
def Obligations.ReachableStatesAreBounded : Prop :=
  ∀ s : State, Reachable s →
    s.len.toNat ≤ 24 ∧ s.cnt.toNat ≤ s.len.toNat ∧ (phaseBits s.phase).toNat ≤ 2 ∧ (errBits s.err).toNat ≤ 5 ∧
    s.outLen.toNat ≤ 24 ∧ s.csum.toNat ≤ 0x19FE ∧ (status s).extractLsb' 13 3 = 0#3

/-- 70_reset_and_hazards.md R106: the record result changes only at an END or TERM without a fault, and OUT_VALID is 1 from there
until a BEGIN or START without a fault. -/
def Obligations.RecordResultWindow : Prop :=
  ∀ (s t : State) (e : Edge) (later : List Edge), s.inputs = e :: later → e.rst = false → step s = .next t →
    ((e.cmdValid = false ∨ (e.cmd ≠ 0x400000#24 ∧ e.cmd ≠ 0x500000#24) ∨ t.err ≠ .none) →
      t.outLen = s.outLen ∧ t.outAddr = s.outAddr ∧ t.outCsum = s.outCsum) ∧
    ((e.cmdValid = false ∨ (e.cmd.extractLsb' 20 4 ≠ 0x1#4 ∧ e.cmd.extractLsb' 20 4 ≠ 0x2#4) ∨ t.err ≠ .none) →
      s.outValid = true → t.outValid = true) ∧
    (e.cmdValid = true → (e.cmd = 0x400000#24 ∨ e.cmd = 0x500000#24) → t.err = .none → t.outValid = true) ∧
    (e.cmdValid = true → (e.cmd.extractLsb' 20 4 = 0x1#4 ∨ e.cmd.extractLsb' 20 4 = 0x2#4) → t.err = .none →
      t.outValid = false)

/-- 70_reset_and_hazards.md R109: where a run ends depends only on the accepted commands and resets, never on the idle edges and
NOPs between them. -/
def Obligations.IdleEdgesDoNotMatter : Prop :=
  ∀ (s : State) (es : List Edge),
    run es.length (s.withInputs es) = run (es.filter isActive).length (s.withInputs (es.filter isActive))

/-! ### Records and runs -/

/-- 41_record.md R69: the record of any mix of DATA, DATA2 and NOP that delivers its payload has the checksum of the formula; the
whole state after END is written out. -/
def Obligations.RecordChecksumLaw : Prop :=
  ∀ (s : State) (is : List Instr), s.err = .none → s.phase = .idle → LegalPayload is →
    run (recordOf is).length (s.feed (recordOf is)) =
      .next { s with
        len := BitVec.ofNat 8 (delivered is).length
        cnt := BitVec.ofNat 5 (delivered is).length
        csum := BitVec.ofNat 16
          ((delivered is).length + s.addr.toNat / 256 + s.addr.toNat % 256 + byteSum (delivered is))
        outLen := BitVec.ofNat 8 (delivered is).length
        outAddr := s.addr
        outCsum := BitVec.ofNat 16
          ((delivered is).length + s.addr.toNat / 256 + s.addr.toNat % 256 + byteSum (delivered is))
        outValid := true
        addr := s.addr + BitVec.ofNat 16 (delivered is).length
        total := s.total + BitVec.ofNat 16 (delivered is).length }

/-- 41_record.md R70: the sum of a legal record never reaches 65536, and `CSUM[15:13]` is 0 in every reachable state. -/
def Obligations.ChecksumNeverWraps : Prop :=
  (∀ (n : Byte) (a : Half) (bs : List Byte), n.toNat ≤ 24 → bs.length = n.toNat →
    n.toNat + a.toNat / 256 + a.toNat % 256 + byteSum bs ≤ 0x19FE) ∧
  (∀ s : State, Reachable s → s.csum.extractLsb' 13 3 = 0#3)

/-- 41_record.md R71 and R72: only START and END change the cursor, and END adds LEN; after records that follow START a (or reset), the cursor is a (or RESET_ADDR) plus the sum of their
lengths, and the total is that sum, both modulo 65536. -/
def Obligations.CursorAndTotalLaw : Prop :=
  (∀ (i : Instr) (s t : State), exec i s = .next t → t.addr ≠ s.addr →
    (∃ a, i = .start a) ∨ (i = .endRec ∧ t.addr = BitVec.ofNat 16 (s.addr.toNat + s.len.toNat))) ∧
  (∀ (rs : List (List Instr)) (s : State) (a : Half), (∀ is ∈ rs, LegalPayload is) → s.err = .none →
    (s.phase = .idle ∨ s.phase = .done) →
    ∃ t, run (Instr.start a :: rs.flatMap recordOf).length (s.feed (.start a :: rs.flatMap recordOf)) = .next t ∧
      t.addr = BitVec.ofNat 16 (a.toNat + payloadCount rs) ∧ t.total = BitVec.ofNat 16 (payloadCount rs) ∧
      t.err = .none ∧ t.phase = .idle ∧ t.inputs = s.inputs) ∧
  (∀ (rs : List (List Instr)) (cfg : Config) (ins : List Edge), (∀ is ∈ rs, LegalPayload is) →
    ∃ t, run (rs.flatMap recordOf).length ((State.resetOf cfg ins).feed (rs.flatMap recordOf)) = .next t ∧
      t.addr = BitVec.ofNat 16 (cfg.resetAddr.toNat + payloadCount rs) ∧
      t.total = BitVec.ofNat 16 (payloadCount rs) ∧ t.err = .none ∧ t.phase = .idle ∧ t.inputs = ins)

/-- 41_record.md R73: every way of delivering the same bytes, in any order and mix, ends in the same state; so do RECORD and
RECORDP. -/
def Obligations.SplitAndOrderIndependence : Prop :=
  (∀ (s : State) (is js : List Instr), s.err = .none → s.phase = .idle → LegalPayload is → LegalPayload js →
    (delivered is).Perm (delivered js) →
    ∃ t, run (recordOf is).length (s.feed (recordOf is)) = .next t ∧
      run (recordOf js).length (s.feed (recordOf js)) = .next t) ∧
  (∀ (s : State) (bs : List Byte), s.err = .none → s.phase = .idle → bs.length ≤ 24 →
    ∃ t, run (recordCmds bs).length (s.feed (recordCmds bs)) = .next t ∧
      run (recordpCmds bs).length (s.feed (recordpCmds bs)) = .next t)

/-- 41_record.md R74: a zero-length record is legal; its checksum is the address sum, and the cursor and the total stay. -/
def Obligations.ZeroLengthRecord : Prop :=
  ∀ s : State, s.err = .none → s.phase = .idle →
    run 2 (s.feed [.beginRec 0#8, .endRec]) =
      .next { s with
        len := 0#8
        cnt := 0#5
        csum := BitVec.ofNat 16 (s.addr.toNat / 256 + s.addr.toNat % 256)
        outLen := 0#8
        outAddr := s.addr
        outCsum := BitVec.ofNat 16 (s.addr.toNat / 256 + s.addr.toNat % 256)
        outValid := true }

/-- 20_memory.md R46: the first record after START a stands at a, each following record stands where the one before ended, whatever
idle edges and NOPs lie between; payload bytes have distinct addresses while the run's total is at most 65536, and beyond that
the addresses come again. -/
def Obligations.RecordsAreContiguous : Prop :=
  (∀ (s : State) (a : Half) (is : List Instr), s.err = .none → (s.phase = .idle ∨ s.phase = .done) → LegalPayload is →
    ∃ t, run (Instr.start a :: recordOf is).length (s.feed (.start a :: recordOf is)) = .next t ∧ t.outAddr = a) ∧
  (∀ (s : State) (is js : List Instr) (gap : List Edge), s.err = .none → s.phase = .idle →
    LegalPayload is → LegalPayload js → (∀ e ∈ gap, isActive e = false) →
    ∃ t u, run (recordOf is).length (s.feed (recordOf is)) = .next t ∧
      run (gap.length + (recordOf js).length) (t.feedEdges (gap ++ (recordOf js).map Edge.command)) = .next u ∧
      u.outAddr = add16 t.outAddr (zext16 t.outLen)) ∧
  (∀ (a : Half) (m k : Nat), payloadAddr (payloadAddr a m) k = payloadAddr a (m + k)) ∧
  (∀ (a : Half) (j k : Nat), j < 65536 → k < 65536 → payloadAddr a j = payloadAddr a k → j = k) ∧
  (∀ (a : Half) (k : Nat), payloadAddr a (k + 65536) = payloadAddr a k)

/-- 42_terminator.md R81: the terminator after a run carries the run's count modulo 65536 and the sum of that count's two bytes;
with no completed record both are 0. -/
def Obligations.TerminatorCarriesRunTotal : Prop :=
  ∀ rs : List (List Instr), (∀ is ∈ rs, LegalPayload is) →
    (∀ (s : State) (a : Half), s.err = .none → (s.phase = .idle ∨ s.phase = .done) → s.cfg.termEn = true →
      ∃ t, run (Instr.start a :: rs.flatMap recordOf ++ [Instr.term]).length
            (s.feed (.start a :: rs.flatMap recordOf ++ [Instr.term])) = .next t ∧
        t.outLen = 0#8 ∧ t.outAddr = BitVec.ofNat 16 (payloadCount rs) ∧
        t.outCsum = BitVec.ofNat 16 (payloadCount rs % 65536 / 256 + payloadCount rs % 256) ∧
        t.outValid = true ∧ t.phase = .done ∧ t.err = .none) ∧
    (∀ (cfg : Config) (ins : List Edge), cfg.termEn = true →
      ∃ t, run (rs.flatMap recordOf ++ [Instr.term]).length
            ((State.resetOf cfg ins).feed (rs.flatMap recordOf ++ [Instr.term])) = .next t ∧
        t.outLen = 0#8 ∧ t.outAddr = BitVec.ofNat 16 (payloadCount rs) ∧
        t.outCsum = BitVec.ofNat 16 (payloadCount rs % 65536 / 256 + payloadCount rs % 256) ∧
        t.outValid = true ∧ t.phase = .done ∧ t.err = .none)

/-- 41_record.md R75: ENCODE of N bytes issues N / 24 records of length 24, then one of length N % 24 if that is not 0, and no
other record. -/
def Obligations.EncodeIssuesFullRecordsThenTheRest : Prop :=
  ∀ bs : List Byte,
    (chunks bs).map List.length =
      List.replicate (bs.length / 24) 24 ++ (if bs.length % 24 = 0 then [] else [bs.length % 24]) ∧
    (chunks bs).flatten = bs ∧
    (∀ a : Half, encodeRun a bs = Instr.start a :: (chunks bs).flatMap recordCmds)

/-- ENCODE of N bytes from address a, on a machine in IDLE or DONE, ends without an error with the cursor at a + N and the total at N
modulo 65536 (30_encoding.md section 5). -/
def Obligations.EncodeRunCompletes : Prop :=
  ∀ (s : State) (a : Half) (bs : List Byte), s.err = .none → (s.phase = .idle ∨ s.phase = .done) →
    ∃ t, run (encodeRun a bs).length (s.feed (encodeRun a bs)) = .next t ∧ t.err = .none ∧ t.phase = .idle ∧
      t.addr = BitVec.ofNat 16 (a.toNat + bs.length) ∧ t.total = BitVec.ofNat 16 bs.length ∧ t.inputs = s.inputs
end

