-- ==== Sys2Proof/Laws/Decode.lean ====
section
/-! SUPPORT. The fields of a packed word, and a word packed again from its fields. -/

namespace Sys2Proof

@[simp] theorem opField_packWord (op : BitVec 4) (arg : Half) : opField (packWord op arg) = op := by
  apply BitVec.eq_of_getLsbD_eq
  intro k hk
  simp only [opField, packWord, BitVec.getLsbD_extractLsb', BitVec.getLsbD_append, hk]
  have h1 : ¬ 20 + k < 16 := by omega
  have h2 : ¬ 20 + k - 16 < 4 := by omega
  have h3 : 20 + k - 16 - 4 = k := by omega
  simp [h1, h2, h3]

@[simp] theorem rsvField_packWord (op : BitVec 4) (arg : Half) : rsvField (packWord op arg) = 0#4 := by
  apply BitVec.eq_of_getLsbD_eq
  intro k hk
  simp only [rsvField, packWord, BitVec.getLsbD_extractLsb', BitVec.getLsbD_append, hk]
  have h1 : ¬ 16 + k < 16 := by omega
  have h2 : ¬ 4 ≤ k := by omega
  simp [h1, h2]

@[simp] theorem argField_packWord (op : BitVec 4) (arg : Half) : argField (packWord op arg) = arg := by
  apply BitVec.eq_of_getLsbD_eq
  intro k hk
  simp only [argField, packWord, BitVec.getLsbD_extractLsb', BitVec.getLsbD_append, hk]
  simp [hk]

@[simp] theorem argHigh_packWord (op : BitVec 4) (h l : Byte) : argHigh (packWord op (h ++ l)) = h := by
  apply BitVec.eq_of_getLsbD_eq
  intro k hk
  simp only [argHigh, packWord, BitVec.getLsbD_extractLsb', BitVec.getLsbD_append, hk]
  have h1 : 8 + k < 16 := by omega
  have h2 : ¬ 8 + k < 8 := by omega
  have h3 : 8 + k - 8 = k := by omega
  simp [h1, h2, h3]

@[simp] theorem argLow_packWord (op : BitVec 4) (h l : Byte) : argLow (packWord op (h ++ l)) = l := by
  apply BitVec.eq_of_getLsbD_eq
  intro k hk
  simp only [argLow, packWord, BitVec.getLsbD_extractLsb', BitVec.getLsbD_append, hk]
  have h1 : k < 16 := by omega
  simp [h1, hk]

/-- ARG is its two bytes. -/
theorem argHigh_append_argLow (w : CmdWord) : argHigh w ++ argLow w = argField w := by
  apply BitVec.eq_of_getLsbD_eq
  intro k hk
  simp only [argHigh, argLow, argField, BitVec.getLsbD_extractLsb', BitVec.getLsbD_append, hk]
  by_cases h1 : k < 8
  · simp [h1]
  · have h2 : 8 + (k - 8) = k := by omega
    have h3 : k - 8 < 8 := by omega
    simp [h1, h2, h3]

/-- A word whose reserved field is 0 is its opcode and its operand. -/
theorem packWord_fields (w : CmdWord) (h : rsvField w = 0#4) : packWord (opField w) (argField w) = w := by
  have hr : ∀ k, k < 4 → w.getLsbD (16 + k) = false := by
    intro k hk
    have := congrArg (fun r : BitVec 4 => r.getLsbD k) h
    simpa [rsvField, BitVec.getLsbD_extractLsb', hk] using this
  apply BitVec.eq_of_getLsbD_eq
  intro k hk
  simp only [packWord, opField, argField, BitVec.getLsbD_append, BitVec.getLsbD_extractLsb']
  by_cases h1 : k < 16
  · simp [h1]
  · by_cases h2 : k - 16 < 4
    · have h3 := hr (k - 16) h2
      have h4 : 16 + (k - 16) = k := by omega
      rw [h4] at h3
      simp [h1, h2, h3]
    · have h3 : 20 + (k - 16 - 4) = k := by omega
      have h4 : k - 16 - 4 < 4 := by omega
      simp [h1, h2, h3, h4]

end Sys2Proof
end

