-- ==== Sys2Proof/Laws/Flags.lean ====
section
/-! SUPPORT. PHASE and ERR stand for their bits, and the halted condition as a fact about ERR. -/

namespace Sys2Proof.Machine

theorem phaseBits_injective : Function.Injective phaseBits := by
  intro p q h
  revert h
  cases p <;> cases q <;> decide

theorem errBits_injective : Function.Injective errBits := by
  intro p q h
  revert h
  cases p <;> cases q <;> decide

/-- Every 2-bit value is a PHASE: the constructors represent the whole register. -/
theorem phaseBits_surjective : Function.Surjective phaseBits := by
  intro b
  have h : ∀ b : BitVec 2, b = 0#2 ∨ b = 1#2 ∨ b = 2#2 ∨ b = 3#2 := by decide
  rcases h b with h | h | h | h
  · exact ⟨.idle, h.symm⟩
  · exact ⟨.recording, h.symm⟩
  · exact ⟨.done, h.symm⟩
  · exact ⟨.unused, h.symm⟩

theorem halted_eq_false_iff (s : State) : halted s = false ↔ s.err = .none := by
  unfold halted
  cases s.err <;> decide

theorem halted_eq_true_iff (s : State) : halted s = true ↔ s.err ≠ .none := by
  unfold halted
  cases s.err <;> decide

end Sys2Proof.Machine
end

