-- ==== Sys2Proof/Laws/Operands.lean ====
section
/-! SUPPORT. The arithmetic of Machine/Operands.lean as arithmetic on numbers and on 16-bit words. -/

namespace Sys2Proof.Machine

/-- The 17-bit form of 00_scope.md R10 is addition of 16-bit words. -/
theorem add16_eq_add (a b : Half) : add16 a b = a + b := by
  apply BitVec.eq_of_toNat_eq
  have ha := a.isLt
  have hb := b.isLt
  simp only [add16, BitVec.toNat_setWidth, BitVec.toNat_add]
  omega

@[simp] theorem toNat_zext16 (b : Byte) : (zext16 b).toNat = b.toNat := by
  have hb := b.isLt
  simp only [zext16, BitVec.toNat_setWidth]
  omega

theorem zext16_eq_ofNat (b : Byte) : zext16 b = BitVec.ofNat 16 b.toNat := by
  apply BitVec.eq_of_toNat_eq
  have hb := b.isLt
  simp only [toNat_zext16, BitVec.toNat_ofNat]
  omega

theorem toNat_add16 (a b : Half) : (add16 a b).toNat = (a.toNat + b.toNat) % 65536 := by
  rw [add16_eq_add, BitVec.toNat_add]

@[simp] theorem toNat_highByte (a : Half) : (highByte a).toNat = a.toNat / 256 := by
  have ha := a.isLt
  simp only [highByte, BitVec.extractLsb'_toNat, Nat.shiftRight_eq_div_pow]
  omega

@[simp] theorem toNat_lowByte (a : Half) : (lowByte a).toNat = a.toNat % 256 := by
  simp only [lowByte, BitVec.extractLsb'_toNat, Nat.shiftRight_zero]

/-- The header sum never wraps: three 8-bit values are below 65536. -/
theorem toNat_headerSum (n : Byte) (a : Half) :
    (headerSum n a).toNat = n.toNat + a.toNat / 256 + a.toNat % 256 := by
  have hn := n.isLt
  have ha := a.isLt
  simp only [headerSum, toNat_add16, toNat_zext16, toNat_highByte, toNat_lowByte]
  omega

theorem ofNat_add16 (m n : Nat) : add16 (BitVec.ofNat 16 m) (BitVec.ofNat 16 n) = BitVec.ofNat 16 (m + n) := by
  rw [add16_eq_add, BitVec.ofNat_add]

theorem sumBytes_nil (c : Half) : sumBytes c [] = c := rfl

theorem sumBytes_cons (c : Half) (b : Byte) (bs : List Byte) :
    sumBytes c (b :: bs) = sumBytes (c + zext16 b) bs := by
  simp only [sumBytes, List.foldl_cons, add16_eq_add]

theorem sumBytes_append (c : Half) (bs ds : List Byte) : sumBytes c (bs ++ ds) = sumBytes (sumBytes c bs) ds :=
  List.foldl_append

/-- The bytes enter the checksum as numbers, modulo 65536 (41_record.md R69). -/
theorem sumBytes_eq_add (c : Half) (bs : List Byte) :
    sumBytes c bs = c + BitVec.ofNat 16 (bs.map BitVec.toNat).sum := by
  induction bs generalizing c with
  | nil => simp [sumBytes_nil]
  | cons b bs ih =>
    rw [sumBytes_cons, ih, zext16_eq_ofNat, List.map_cons, List.sum_cons, BitVec.ofNat_add, BitVec.add_assoc]

end Sys2Proof.Machine
end

