-- ==== Sys2Proof/Laws/State.lean ====
section
/-! SUPPORT. One lemma per field per register update of Machine/Ops.lean, so that no later proof unfolds an update. -/

namespace Sys2Proof.Machine

section
variable (s : State)

@[simp] theorem withInputs_addr (ins : List Edge) : (s.withInputs ins).addr = s.addr := rfl
@[simp] theorem withInputs_csum (ins : List Edge) : (s.withInputs ins).csum = s.csum := rfl
@[simp] theorem withInputs_len (ins : List Edge) : (s.withInputs ins).len = s.len := rfl
@[simp] theorem withInputs_cnt (ins : List Edge) : (s.withInputs ins).cnt = s.cnt := rfl
@[simp] theorem withInputs_phase (ins : List Edge) : (s.withInputs ins).phase = s.phase := rfl
@[simp] theorem withInputs_total (ins : List Edge) : (s.withInputs ins).total = s.total := rfl
@[simp] theorem withInputs_outLen (ins : List Edge) : (s.withInputs ins).outLen = s.outLen := rfl
@[simp] theorem withInputs_outAddr (ins : List Edge) : (s.withInputs ins).outAddr = s.outAddr := rfl
@[simp] theorem withInputs_outCsum (ins : List Edge) : (s.withInputs ins).outCsum = s.outCsum := rfl
@[simp] theorem withInputs_outValid (ins : List Edge) : (s.withInputs ins).outValid = s.outValid := rfl
@[simp] theorem withInputs_err (ins : List Edge) : (s.withInputs ins).err = s.err := rfl
@[simp] theorem withInputs_fcmd (ins : List Edge) : (s.withInputs ins).fcmd = s.fcmd := rfl
@[simp] theorem withInputs_cfg (ins : List Edge) : (s.withInputs ins).cfg = s.cfg := rfl
@[simp] theorem withInputs_inputs (ins : List Edge) : (s.withInputs ins).inputs = ins := rfl

@[simp] theorem raise_addr (c : ErrCode) (w : CmdWord) : (raise c w s).addr = s.addr := rfl
@[simp] theorem raise_csum (c : ErrCode) (w : CmdWord) : (raise c w s).csum = s.csum := rfl
@[simp] theorem raise_len (c : ErrCode) (w : CmdWord) : (raise c w s).len = s.len := rfl
@[simp] theorem raise_cnt (c : ErrCode) (w : CmdWord) : (raise c w s).cnt = s.cnt := rfl
@[simp] theorem raise_phase (c : ErrCode) (w : CmdWord) : (raise c w s).phase = s.phase := rfl
@[simp] theorem raise_total (c : ErrCode) (w : CmdWord) : (raise c w s).total = s.total := rfl
@[simp] theorem raise_outLen (c : ErrCode) (w : CmdWord) : (raise c w s).outLen = s.outLen := rfl
@[simp] theorem raise_outAddr (c : ErrCode) (w : CmdWord) : (raise c w s).outAddr = s.outAddr := rfl
@[simp] theorem raise_outCsum (c : ErrCode) (w : CmdWord) : (raise c w s).outCsum = s.outCsum := rfl
@[simp] theorem raise_outValid (c : ErrCode) (w : CmdWord) : (raise c w s).outValid = s.outValid := rfl
@[simp] theorem raise_err (c : ErrCode) (w : CmdWord) : (raise c w s).err = c := rfl
@[simp] theorem raise_fcmd (c : ErrCode) (w : CmdWord) : (raise c w s).fcmd = w := rfl
@[simp] theorem raise_cfg (c : ErrCode) (w : CmdWord) : (raise c w s).cfg = s.cfg := rfl
@[simp] theorem raise_inputs (c : ErrCode) (w : CmdWord) : (raise c w s).inputs = s.inputs := rfl

@[simp] theorem applyReset_addr : (applyReset s).addr = s.cfg.resetAddr := rfl
@[simp] theorem applyReset_csum : (applyReset s).csum = 0#16 := rfl
@[simp] theorem applyReset_len : (applyReset s).len = 0#8 := rfl
@[simp] theorem applyReset_cnt : (applyReset s).cnt = 0#5 := rfl
@[simp] theorem applyReset_phase : (applyReset s).phase = .idle := rfl
@[simp] theorem applyReset_total : (applyReset s).total = 0#16 := rfl
@[simp] theorem applyReset_outLen : (applyReset s).outLen = 0#8 := rfl
@[simp] theorem applyReset_outAddr : (applyReset s).outAddr = 0#16 := rfl
@[simp] theorem applyReset_outCsum : (applyReset s).outCsum = 0#16 := rfl
@[simp] theorem applyReset_outValid : (applyReset s).outValid = false := rfl
@[simp] theorem applyReset_err : (applyReset s).err = .none := rfl
@[simp] theorem applyReset_fcmd : (applyReset s).fcmd = 0#24 := rfl
@[simp] theorem applyReset_cfg : (applyReset s).cfg = s.cfg := rfl
@[simp] theorem applyReset_inputs : (applyReset s).inputs = s.inputs := rfl

@[simp] theorem startRun_addr (a : Half) : (startRun a s).addr = a := rfl
@[simp] theorem startRun_csum (a : Half) : (startRun a s).csum = 0#16 := rfl
@[simp] theorem startRun_len (a : Half) : (startRun a s).len = 0#8 := rfl
@[simp] theorem startRun_cnt (a : Half) : (startRun a s).cnt = 0#5 := rfl
@[simp] theorem startRun_phase (a : Half) : (startRun a s).phase = .idle := rfl
@[simp] theorem startRun_total (a : Half) : (startRun a s).total = 0#16 := rfl
@[simp] theorem startRun_outLen (a : Half) : (startRun a s).outLen = s.outLen := rfl
@[simp] theorem startRun_outAddr (a : Half) : (startRun a s).outAddr = s.outAddr := rfl
@[simp] theorem startRun_outCsum (a : Half) : (startRun a s).outCsum = s.outCsum := rfl
@[simp] theorem startRun_outValid (a : Half) : (startRun a s).outValid = false := rfl
@[simp] theorem startRun_err (a : Half) : (startRun a s).err = s.err := rfl
@[simp] theorem startRun_fcmd (a : Half) : (startRun a s).fcmd = s.fcmd := rfl
@[simp] theorem startRun_cfg (a : Half) : (startRun a s).cfg = s.cfg := rfl
@[simp] theorem startRun_inputs (a : Half) : (startRun a s).inputs = s.inputs := rfl

@[simp] theorem openRecord_addr (n : Byte) : (openRecord n s).addr = s.addr := rfl
@[simp] theorem openRecord_csum (n : Byte) : (openRecord n s).csum = headerSum n s.addr := rfl
@[simp] theorem openRecord_len (n : Byte) : (openRecord n s).len = n := rfl
@[simp] theorem openRecord_cnt (n : Byte) : (openRecord n s).cnt = 0#5 := rfl
@[simp] theorem openRecord_phase (n : Byte) : (openRecord n s).phase = .recording := rfl
@[simp] theorem openRecord_total (n : Byte) : (openRecord n s).total = s.total := rfl
@[simp] theorem openRecord_outLen (n : Byte) : (openRecord n s).outLen = s.outLen := rfl
@[simp] theorem openRecord_outAddr (n : Byte) : (openRecord n s).outAddr = s.outAddr := rfl
@[simp] theorem openRecord_outCsum (n : Byte) : (openRecord n s).outCsum = s.outCsum := rfl
@[simp] theorem openRecord_outValid (n : Byte) : (openRecord n s).outValid = false := rfl
@[simp] theorem openRecord_err (n : Byte) : (openRecord n s).err = s.err := rfl
@[simp] theorem openRecord_fcmd (n : Byte) : (openRecord n s).fcmd = s.fcmd := rfl
@[simp] theorem openRecord_cfg (n : Byte) : (openRecord n s).cfg = s.cfg := rfl
@[simp] theorem openRecord_inputs (n : Byte) : (openRecord n s).inputs = s.inputs := rfl

@[simp] theorem addPayload_addr (bs : List Byte) : (addPayload bs s).addr = s.addr := rfl
@[simp] theorem addPayload_csum (bs : List Byte) : (addPayload bs s).csum = sumBytes s.csum bs := rfl
@[simp] theorem addPayload_len (bs : List Byte) : (addPayload bs s).len = s.len := rfl
@[simp] theorem addPayload_cnt (bs : List Byte) : (addPayload bs s).cnt = s.cnt + BitVec.ofNat 5 bs.length := rfl
@[simp] theorem addPayload_phase (bs : List Byte) : (addPayload bs s).phase = s.phase := rfl
@[simp] theorem addPayload_total (bs : List Byte) : (addPayload bs s).total = s.total := rfl
@[simp] theorem addPayload_outLen (bs : List Byte) : (addPayload bs s).outLen = s.outLen := rfl
@[simp] theorem addPayload_outAddr (bs : List Byte) : (addPayload bs s).outAddr = s.outAddr := rfl
@[simp] theorem addPayload_outCsum (bs : List Byte) : (addPayload bs s).outCsum = s.outCsum := rfl
@[simp] theorem addPayload_outValid (bs : List Byte) : (addPayload bs s).outValid = s.outValid := rfl
@[simp] theorem addPayload_err (bs : List Byte) : (addPayload bs s).err = s.err := rfl
@[simp] theorem addPayload_fcmd (bs : List Byte) : (addPayload bs s).fcmd = s.fcmd := rfl
@[simp] theorem addPayload_cfg (bs : List Byte) : (addPayload bs s).cfg = s.cfg := rfl
@[simp] theorem addPayload_inputs (bs : List Byte) : (addPayload bs s).inputs = s.inputs := rfl

@[simp] theorem latchResult_addr (n : Byte) (a c : Half) : (latchResult n a c s).addr = s.addr := rfl
@[simp] theorem latchResult_csum (n : Byte) (a c : Half) : (latchResult n a c s).csum = s.csum := rfl
@[simp] theorem latchResult_len (n : Byte) (a c : Half) : (latchResult n a c s).len = s.len := rfl
@[simp] theorem latchResult_cnt (n : Byte) (a c : Half) : (latchResult n a c s).cnt = s.cnt := rfl
@[simp] theorem latchResult_phase (n : Byte) (a c : Half) : (latchResult n a c s).phase = s.phase := rfl
@[simp] theorem latchResult_total (n : Byte) (a c : Half) : (latchResult n a c s).total = s.total := rfl
@[simp] theorem latchResult_outLen (n : Byte) (a c : Half) : (latchResult n a c s).outLen = n := rfl
@[simp] theorem latchResult_outAddr (n : Byte) (a c : Half) : (latchResult n a c s).outAddr = a := rfl
@[simp] theorem latchResult_outCsum (n : Byte) (a c : Half) : (latchResult n a c s).outCsum = c := rfl
@[simp] theorem latchResult_outValid (n : Byte) (a c : Half) : (latchResult n a c s).outValid = true := rfl
@[simp] theorem latchResult_err (n : Byte) (a c : Half) : (latchResult n a c s).err = s.err := rfl
@[simp] theorem latchResult_fcmd (n : Byte) (a c : Half) : (latchResult n a c s).fcmd = s.fcmd := rfl
@[simp] theorem latchResult_cfg (n : Byte) (a c : Half) : (latchResult n a c s).cfg = s.cfg := rfl
@[simp] theorem latchResult_inputs (n : Byte) (a c : Half) : (latchResult n a c s).inputs = s.inputs := rfl

@[simp] theorem advance_addr : (advance s).addr = add16 s.addr (zext16 s.len) := rfl
@[simp] theorem advance_csum : (advance s).csum = s.csum := rfl
@[simp] theorem advance_len : (advance s).len = s.len := rfl
@[simp] theorem advance_cnt : (advance s).cnt = s.cnt := rfl
@[simp] theorem advance_phase : (advance s).phase = .idle := rfl
@[simp] theorem advance_total : (advance s).total = add16 s.total (zext16 s.len) := rfl
@[simp] theorem advance_outLen : (advance s).outLen = s.outLen := rfl
@[simp] theorem advance_outAddr : (advance s).outAddr = s.outAddr := rfl
@[simp] theorem advance_outCsum : (advance s).outCsum = s.outCsum := rfl
@[simp] theorem advance_outValid : (advance s).outValid = s.outValid := rfl
@[simp] theorem advance_err : (advance s).err = s.err := rfl
@[simp] theorem advance_fcmd : (advance s).fcmd = s.fcmd := rfl
@[simp] theorem advance_cfg : (advance s).cfg = s.cfg := rfl
@[simp] theorem advance_inputs : (advance s).inputs = s.inputs := rfl

@[simp] theorem enterDone_addr (c : Half) : (enterDone c s).addr = s.addr := rfl
@[simp] theorem enterDone_csum (c : Half) : (enterDone c s).csum = c := rfl
@[simp] theorem enterDone_len (c : Half) : (enterDone c s).len = s.len := rfl
@[simp] theorem enterDone_cnt (c : Half) : (enterDone c s).cnt = s.cnt := rfl
@[simp] theorem enterDone_phase (c : Half) : (enterDone c s).phase = .done := rfl
@[simp] theorem enterDone_total (c : Half) : (enterDone c s).total = s.total := rfl
@[simp] theorem enterDone_outLen (c : Half) : (enterDone c s).outLen = s.outLen := rfl
@[simp] theorem enterDone_outAddr (c : Half) : (enterDone c s).outAddr = s.outAddr := rfl
@[simp] theorem enterDone_outCsum (c : Half) : (enterDone c s).outCsum = s.outCsum := rfl
@[simp] theorem enterDone_outValid (c : Half) : (enterDone c s).outValid = s.outValid := rfl
@[simp] theorem enterDone_err (c : Half) : (enterDone c s).err = s.err := rfl
@[simp] theorem enterDone_fcmd (c : Half) : (enterDone c s).fcmd = s.fcmd := rfl
@[simp] theorem enterDone_cfg (c : Half) : (enterDone c s).cfg = s.cfg := rfl
@[simp] theorem enterDone_inputs (c : Half) : (enterDone c s).inputs = s.inputs := rfl

end

end Sys2Proof.Machine
end

