-- ==== Sys2Proof/Laws/Ops.lean ====
section
/-! SUPPORT. What each shared operation of Machine/Ops.lean can do, said once. -/

namespace Sys2Proof.Machine

/-- A halted block ignores a command. -/
theorem accept_halted (i : Instr) (perform : State → Except ErrCode State) (s : State) (h : s.err ≠ .none) :
    accept i perform s = .next s := by
  simp [accept, (halted_eq_true_iff s).2 h]

/-- A command the instance does not have raises E_ILL. -/
theorem accept_illegal (i : Instr) (perform : State → Except ErrCode State) (s : State) (h : s.err = .none)
    (hw : i.wellFormed s.cfg.termEn = false) : accept i perform s = .next (raise .ill (encode i) s) := by
  simp [accept, (halted_eq_false_iff s).2 h, hw]

/-- A command out of phase raises E_SEQ. -/
theorem accept_out_of_phase (i : Instr) (perform : State → Except ErrCode State) (s : State) (h : s.err = .none)
    (hw : i.wellFormed s.cfg.termEn = true) (hl : legal i s.phase = false) :
    accept i perform s = .next (raise .seq (encode i) s) := by
  simp [accept, (halted_eq_false_iff s).2 h, hw, hl]

/-- A command in phase whose own rule succeeds makes that rule's writes. -/
theorem accept_ok (i : Instr) (perform : State → Except ErrCode State) (s s' : State) (h : s.err = .none)
    (hw : i.wellFormed s.cfg.termEn = true) (hl : legal i s.phase = true) (hp : perform s = .ok s') :
    accept i perform s = .next s' := by
  simp [accept, (halted_eq_false_iff s).2 h, hw, hl, hp]

/-- A command in phase whose own rule fails raises that error. -/
theorem accept_error (i : Instr) (perform : State → Except ErrCode State) (s : State) (code : ErrCode)
    (h : s.err = .none) (hw : i.wellFormed s.cfg.termEn = true) (hl : legal i s.phase = true)
    (hp : perform s = .error code) : accept i perform s = .next (raise code (encode i) s) := by
  simp [accept, (halted_eq_false_iff s).2 h, hw, hl, hp]

/-- Everything the frame of a command can do (30_encoding.md R56), and nothing else. -/
theorem accept_cases (i : Instr) (perform : State → Except ErrCode State) (s : State) :
    (s.err ≠ .none ∧ accept i perform s = .next s) ∨
    (s.err = .none ∧ i.wellFormed s.cfg.termEn = false ∧ accept i perform s = .next (raise .ill (encode i) s)) ∨
    (s.err = .none ∧ i.wellFormed s.cfg.termEn = true ∧ legal i s.phase = false ∧
      accept i perform s = .next (raise .seq (encode i) s)) ∨
    (∃ code, s.err = .none ∧ i.wellFormed s.cfg.termEn = true ∧ legal i s.phase = true ∧
      perform s = .error code ∧ accept i perform s = .next (raise code (encode i) s)) ∨
    (∃ s', s.err = .none ∧ i.wellFormed s.cfg.termEn = true ∧ legal i s.phase = true ∧
      perform s = .ok s' ∧ accept i perform s = .next s') := by
  by_cases h : s.err = .none
  · cases hw : i.wellFormed s.cfg.termEn with
    | false => exact .inr (.inl ⟨h, rfl, accept_illegal i perform s h hw⟩)
    | true =>
      cases hl : legal i s.phase with
      | false => exact .inr (.inr (.inl ⟨h, rfl, rfl, accept_out_of_phase i perform s h hw hl⟩))
      | true =>
        cases hp : perform s with
        | error code =>
          exact .inr (.inr (.inr (.inl ⟨code, h, rfl, rfl, rfl, accept_error i perform s code h hw hl hp⟩)))
        | ok s' => exact .inr (.inr (.inr (.inr ⟨s', h, rfl, rfl, rfl, accept_ok i perform s s' h hw hl hp⟩)))
  · exact .inl ⟨h, accept_halted i perform s h⟩

/-- What the perform step of DATA and DATA2 can do. -/
theorem takePayload_cases (bs : List Byte) (s : State) :
    (s.cnt.toNat + bs.length > s.len.toNat ∧ takePayload bs s = .error .ovr) ∨
    (s.cnt.toNat + bs.length ≤ s.len.toNat ∧ takePayload bs s = .ok (addPayload bs s)) := by
  by_cases h : s.cnt.toNat + bs.length > s.len.toNat
  · exact .inl ⟨h, by simp [takePayload, overrun, h]⟩
  · exact .inr ⟨Nat.le_of_not_lt h, by simp [takePayload, overrun, h]⟩

end Sys2Proof.Machine
end

