-- ==== Sys2Proof/Laws/Exec.lean ====
section
/-! SUPPORT. What `exec` can do, said once for all commands: every meaning is the frame `accept` around the command's own rule. -/

namespace Sys2Proof.Machine

/-- The command's own rule, the `perform` step of 30_encoding.md R56. -/
def performOf : Instr → State → Except ErrCode State
  | .nop, s => .ok s
  | .start a16, s => .ok (startRun a16 s)
  | .beginRec n, s => if lengthLegal n then .ok (openRecord n s) else .error .len
  | .data b, s => takePayload [b] s
  | .data2 b0 b1, s => takePayload [b0, b1] s
  | .endRec, s => if complete s then .ok (advance (latchResult s.len s.addr s.csum s)) else .error .und
  | .term, s => .ok (enterDone (headerSum 0#8 s.total) (latchResult 0#8 s.total (headerSum 0#8 s.total) s))

theorem exec_eq_accept (i : Instr) (s : State) : exec i s = accept i (performOf i) s := by
  cases i <;> rfl

theorem exec_halted (i : Instr) (s : State) (h : s.err ≠ .none) : exec i s = .next s := by
  rw [exec_eq_accept]
  exact accept_halted i _ s h

theorem exec_illegal (i : Instr) (s : State) (h : s.err = .none) (hw : i.wellFormed s.cfg.termEn = false) :
    exec i s = .next (raise .ill (encode i) s) := by
  rw [exec_eq_accept]
  exact accept_illegal i _ s h hw

theorem exec_out_of_phase (i : Instr) (s : State) (h : s.err = .none) (hw : i.wellFormed s.cfg.termEn = true)
    (hl : legal i s.phase = false) : exec i s = .next (raise .seq (encode i) s) := by
  rw [exec_eq_accept]
  exact accept_out_of_phase i _ s h hw hl

theorem exec_perform_ok (i : Instr) (s s' : State) (h : s.err = .none) (hw : i.wellFormed s.cfg.termEn = true)
    (hl : legal i s.phase = true) (hp : performOf i s = .ok s') : exec i s = .next s' := by
  rw [exec_eq_accept]
  exact accept_ok i _ s s' h hw hl hp

theorem exec_perform_error (i : Instr) (s : State) (code : ErrCode) (h : s.err = .none)
    (hw : i.wellFormed s.cfg.termEn = true) (hl : legal i s.phase = true) (hp : performOf i s = .error code) :
    exec i s = .next (raise code (encode i) s) := by
  rw [exec_eq_accept]
  exact accept_error i _ s code h hw hl hp

/-- Everything a decoded command can do: nothing while halted, take one of the errors, or make its own writes. -/
theorem exec_cases (i : Instr) (s : State) :
    (s.err ≠ .none ∧ exec i s = .next s) ∨
    (s.err = .none ∧ i.wellFormed s.cfg.termEn = false ∧ exec i s = .next (raise .ill (encode i) s)) ∨
    (s.err = .none ∧ i.wellFormed s.cfg.termEn = true ∧ legal i s.phase = false ∧
      exec i s = .next (raise .seq (encode i) s)) ∨
    (∃ code, s.err = .none ∧ i.wellFormed s.cfg.termEn = true ∧ legal i s.phase = true ∧
      performOf i s = .error code ∧ exec i s = .next (raise code (encode i) s)) ∨
    (∃ s', s.err = .none ∧ i.wellFormed s.cfg.termEn = true ∧ legal i s.phase = true ∧
      performOf i s = .ok s' ∧ exec i s = .next s') := by
  rw [exec_eq_accept]
  exact accept_cases i (performOf i) s

/-- The one operand error each command's own rule can raise (60_exceptions.md R89). -/
theorem performOf_error {i : Instr} {s : State} {code : ErrCode} (h : performOf i s = .error code) :
    (code = .len ∧ ∃ n, i = .beginRec n) ∨
    (code = .ovr ∧ ((∃ b, i = .data b) ∨ ∃ b0 b1, i = .data2 b0 b1)) ∨
    (code = .und ∧ i = .endRec) := by
  cases i with
  | nop => cases h
  | start a => cases h
  | beginRec n =>
    simp only [performOf] at h
    split at h
    · cases h
    · cases h
      exact .inl ⟨rfl, n, rfl⟩
  | data b =>
    rcases takePayload_cases [b] s with ⟨_, hp⟩ | ⟨_, hp⟩
    · cases hp.symm.trans h
      exact .inr (.inl ⟨rfl, .inl ⟨b, rfl⟩⟩)
    · cases hp.symm.trans h
  | data2 b0 b1 =>
    rcases takePayload_cases [b0, b1] s with ⟨_, hp⟩ | ⟨_, hp⟩
    · cases hp.symm.trans h
      exact .inr (.inl ⟨rfl, .inr ⟨b0, b1, rfl⟩⟩)
    · cases hp.symm.trans h
  | endRec =>
    simp only [performOf] at h
    split at h
    · cases h
    · cases h
      exact .inr (.inr ⟨rfl, rfl⟩)
  | term => cases h

/-- What each command's own rule writes when it raises no error. -/
theorem performOf_ok {i : Instr} {s s' : State} (h : performOf i s = .ok s') :
    (i = .nop ∧ s' = s) ∨
    (∃ a, i = .start a ∧ s' = startRun a s) ∨
    (∃ n, i = .beginRec n ∧ n.toNat ≤ maxLen ∧ s' = openRecord n s) ∨
    (∃ b, i = .data b ∧ s.cnt.toNat + 1 ≤ s.len.toNat ∧ s' = addPayload [b] s) ∨
    (∃ b0 b1, i = .data2 b0 b1 ∧ s.cnt.toNat + 2 ≤ s.len.toNat ∧ s' = addPayload [b0, b1] s) ∨
    (i = .endRec ∧ s.cnt.toNat = s.len.toNat ∧ s' = advance (latchResult s.len s.addr s.csum s)) ∨
    (i = .term ∧ s' = enterDone (headerSum 0#8 s.total) (latchResult 0#8 s.total (headerSum 0#8 s.total) s)) := by
  cases i with
  | nop =>
    cases h
    exact .inl ⟨rfl, rfl⟩
  | start a =>
    cases h
    exact .inr (.inl ⟨a, rfl, rfl⟩)
  | beginRec n =>
    simp only [performOf] at h
    split at h
    · rename_i hn
      cases h
      exact .inr (.inr (.inl ⟨n, rfl, of_decide_eq_true hn, rfl⟩))
    · cases h
  | data b =>
    rcases takePayload_cases [b] s with ⟨_, hp⟩ | ⟨hc, hp⟩
    · cases hp.symm.trans h
    · cases hp.symm.trans h
      exact .inr (.inr (.inr (.inl ⟨b, rfl, hc, rfl⟩)))
  | data2 b0 b1 =>
    rcases takePayload_cases [b0, b1] s with ⟨_, hp⟩ | ⟨hc, hp⟩
    · cases hp.symm.trans h
    · cases hp.symm.trans h
      exact .inr (.inr (.inr (.inr (.inl ⟨b0, b1, rfl, hc, rfl⟩))))
  | endRec =>
    simp only [performOf] at h
    split at h
    · rename_i hc
      cases h
      exact .inr (.inr (.inr (.inr (.inr (.inl ⟨rfl, of_decide_eq_true hc, rfl⟩)))))
    · cases h
  | term =>
    cases h
    exact .inr (.inr (.inr (.inr (.inr (.inr ⟨rfl, rfl⟩)))))

end Sys2Proof.Machine
end

