-- ==== Sys2Proof/Laws/PerInstr.lean ====
section
/-! SUPPORT. Per-instruction lemmas: the word of each command matches its row of the opcode map (30_encoding.md R49). -/

namespace Sys2Proof.Laws

/-- The word and mask of a command's row in 30_encoding.md R49. -/
def tableRow : Instr → CmdWord × CmdWord
  | .nop => (0x000000#24, 0xFFFFFF#24)
  | .start _ => (0x100000#24, 0xFF0000#24)
  | .beginRec _ => (0x200000#24, 0xFFFF00#24)
  | .data _ => (0x300000#24, 0xFFFF00#24)
  | .endRec => (0x400000#24, 0xFFFFFF#24)
  | .term => (0x500000#24, 0xFFFFFF#24)
  | .data2 _ _ => (0x600000#24, 0xFF0000#24)

/-- "A word matches a row when (w AND mask) = word with the variable digits set to 0" (30_encoding.md R49). -/
def EncodeMatchesRow.Statement (i : Instr) : Prop := encode i &&& (tableRow i).2 = (tableRow i).1

theorem mask_high8 (op : BitVec 4) (arg : Half) : packWord op arg &&& 0xFF0000#24 = packWord op 0#16 := by
  have hm : (0xFF0000#24 : CmdWord) = (BitVec.allOnes 4 ++ BitVec.allOnes 4) ++ 0#16 := by decide
  rw [packWord, hm, BitVec.and_append, BitVec.and_append]
  simp only [BitVec.and_allOnes, BitVec.and_zero]
  rfl

theorem mask_high16 (op : BitVec 4) (b : Byte) : packWord op (0#8 ++ b) &&& 0xFFFF00#24 = packWord op 0#16 := by
  have hm : (0xFFFF00#24 : CmdWord) = (BitVec.allOnes 4 ++ BitVec.allOnes 4) ++ (BitVec.allOnes 8 ++ 0#8) := by decide
  have hz : (0#8 : Byte) ++ (0#8 : Byte) = 0#16 := by decide
  rw [packWord, hm, BitVec.and_append, BitVec.and_append, BitVec.and_append]
  simp only [BitVec.and_allOnes, BitVec.and_zero, hz]
  rfl

theorem EncodeMatchesRow.nop : EncodeMatchesRow.Statement .nop := by
  show encode .nop &&& 0xFFFFFF#24 = 0x000000#24
  decide

theorem EncodeMatchesRow.start (a16 : Half) : EncodeMatchesRow.Statement (.start a16) :=
  (mask_high8 0x1#4 a16).trans rfl

theorem EncodeMatchesRow.beginRec (n : Byte) : EncodeMatchesRow.Statement (.beginRec n) :=
  (mask_high16 0x2#4 n).trans rfl

theorem EncodeMatchesRow.data (b : Byte) : EncodeMatchesRow.Statement (.data b) :=
  (mask_high16 0x3#4 b).trans rfl

theorem EncodeMatchesRow.data2 (b0 b1 : Byte) : EncodeMatchesRow.Statement (.data2 b0 b1) :=
  (mask_high8 0x6#4 (b0 ++ b1)).trans rfl

theorem EncodeMatchesRow.endRec : EncodeMatchesRow.Statement .endRec := by
  show encode .endRec &&& 0xFFFFFF#24 = 0x400000#24
  decide

theorem EncodeMatchesRow.term : EncodeMatchesRow.Statement .term := by
  show encode .term &&& 0xFFFFFF#24 = 0x500000#24
  decide

end Sys2Proof.Laws
end

