-- ==== Sys2Proof/Laws/Step.lean ====
section
/-! SUPPORT. What one edge and a run of edges can do, said once; later proofs cite these and do not unfold the step. -/

namespace Sys2Proof.Machine

theorem withInputs_withInputs (s : State) (es fs : List Edge) :
    (s.withInputs es).withInputs fs = s.withInputs fs := rfl

theorem withInputs_self (s : State) : s.withInputs s.inputs = s := rfl

/-- A step whose list of samples has ended is idle (log 1). -/
theorem step_of_nil {s : State} (h : s.inputs = []) : step s = .next s := by
  simp [step, h]

/-- A step acts on the next sample and leaves the later ones. -/
theorem step_of_cons {s : State} {e : Edge} {later : List Edge} (h : s.inputs = e :: later) :
    step s = onEdge e (s.withInputs later) := by
  simp [step, h]

theorem onEdge_reset {e : Edge} (h : e.rst = true) (s : State) : onEdge e s = .next (applyReset s) := by
  simp [onEdge, h]

theorem onEdge_idle {e : Edge} (hr : e.rst = false) (hv : e.cmdValid = false) (s : State) :
    onEdge e s = .next s := by
  simp [onEdge, hr, hv]

theorem onEdge_word {e : Edge} (hr : e.rst = false) (hv : e.cmdValid = true) (s : State) :
    onEdge e s = acceptWord e.cmd s := by
  simp [onEdge, hr, hv]

/-- Everything one accepted word can do. -/
theorem acceptWord_cases (w : CmdWord) (s : State) :
    (s.err ≠ .none ∧ acceptWord w s = .next s) ∨
    (∃ r, s.err = .none ∧ decode s.cfg.termEn w = .error r ∧ acceptWord w s = .next (raise .ill w s)) ∨
    (∃ i, s.err = .none ∧ decode s.cfg.termEn w = .ok i ∧ acceptWord w s = exec i s) := by
  by_cases h : s.err = .none
  · have hh := (halted_eq_false_iff s).2 h
    cases hd : decode s.cfg.termEn w with
    | error r => exact .inr (.inl ⟨r, h, rfl, by simp [acceptWord, hh, hd]⟩)
    | ok i => exact .inr (.inr ⟨i, h, rfl, by simp [acceptWord, hh, hd]⟩)
  · exact .inl ⟨h, by simp [acceptWord, (halted_eq_true_iff s).2 h]⟩

/-- The word a legal decoding came from is the word of that command. -/
theorem word_of_decode {t : Bool} {w : CmdWord} {i : Instr} (h : decode t w = .ok i) :
    rsvField w = 0#4 ∧ decodeOp t w = .ok i := by
  unfold decode at h
  split at h
  · exact ⟨‹_›, h⟩
  · cases h

/-- A command's own rule does not look at what the host drives next. -/
theorem performOf_withInputs (i : Instr) (s : State) (es : List Edge) :
    performOf i (s.withInputs es) = (performOf i s).map (fun t => t.withInputs es) := by
  cases i with
  | nop => rfl
  | start a => rfl
  | beginRec n =>
    simp only [performOf]
    cases lengthLegal n <;> rfl
  | data b =>
    simp only [performOf, takePayload, show overrun [b] (s.withInputs es) = overrun [b] s from rfl]
    cases overrun [b] s <;> rfl
  | data2 b0 b1 =>
    simp only [performOf, takePayload, show overrun [b0, b1] (s.withInputs es) = overrun [b0, b1] s from rfl]
    cases overrun [b0, b1] s <;> rfl
  | endRec =>
    simp only [performOf, show complete (s.withInputs es) = complete s from rfl]
    cases complete s <;> rfl
  | term => rfl

theorem run_zero (s : State) : run 0 s = .next s := rfl

theorem run_succ (k : Nat) (s : State) :
    run (k + 1) s =
      match step s with
      | .next s' => run k s'
      | .fault r => .fault r
      | .refused r => .refused r := by
  have hc : ∀ o, step s = o → run (k + 1) s = match o with
      | .next s' => run k s'
      | .fault r => .fault r
      | .refused r => .refused r := by
    intro o ho
    have ho' : Sys2Proof.core.step s = o := ho
    refine (Host.Core.run.eq_2 Sys2Proof.core s k).trans ?_
    rw [ho']
    cases o <;> rfl
  exact hc _ rfl

theorem run_succ_of_step {k : Nat} {s s' : State} (h : step s = .next s') : run (k + 1) s = run k s' := by
  rw [run_succ, h]

/-- A run of `j + k` edges is a run of `j` edges and then one of `k`. -/
theorem run_add {j k : Nat} {s s' : State} (h : run j s = .next s') : run (j + k) s = run k s' := by
  induction j generalizing s with
  | zero =>
    cases h
    rw [Nat.zero_add]
  | succ j ih =>
    rw [run_succ] at h
    rw [Nat.add_right_comm, run_succ]
    cases hs : step s with
    | next u =>
      rw [hs] at h
      exact ih h
    | fault r => cases r
    | refused r =>
      rw [hs] at h
      cases h

end Sys2Proof.Machine
end

