-- ==== Sys2Proof/Tests/Slice0.lean ====
section
/-! SUPPORT. The package's own tests: well-formedness, words written out from 30_encoding.md R49, single steps whose results are
those of spec/95_test_vectors.md, and for each statement with hypotheses states and operands that meet them. -/

namespace Sys2Proof.Tests

open Sys2Proof.Machine

/-- The state after an outcome, if it is a next state. -/
def after : Host.Outcome State Fault Refusal → Option State
  | .next s => some s
  | .fault _ => none
  | .refused _ => none

/-- An instance with TERM_EN = 1. -/
def withTerm : Config := { termEn := true, resetAddr := 0x0200#16 }

/-- Reset of an instance with TERM_EN = 1. -/
def termReset : State := State.resetOf withTerm []

/-- An open record of `len` bytes with `cnt` accumulated and the given checksum, at the reset address. -/
def openRec (len : Byte) (cnt : BitVec 5) (csum : Half) : State :=
  { State.reset with phase := .recording, len := len, cnt := cnt, csum := csum }

/-- A halted state, after E_UND (95_test_vectors.md P3). -/
def haltedState : State := raise .und 0x400000#24 (openRec 2#8 1#5 0x0058#16)

/-! ### Well-formedness and decoding -/

theorem test_wf_term_needs_termEn : Instr.wellFormed false .term = false := by decide
theorem test_wf_term_with_termEn : Instr.wellFormed true .term = true := by decide
theorem test_wf_begin_of_illegal_length : Instr.wellFormed false (.beginRec 255#8) = true := by decide

theorem test_decode_nop : decode false 0b000000000000000000000000#24 = .ok .nop := by decide
theorem test_decode_start : decode false 0b000100000001001000110100#24 = .ok (.start 0x1234#16) := by decide
theorem test_decode_begin : decode false 0b001000000000000000011000#24 = .ok (.beginRec 24#8) := by decide
theorem test_decode_data : decode false 0b001100000000000011111111#24 = .ok (.data 0xFF#8) := by decide
theorem test_decode_end : decode false 0b010000000000000000000000#24 = .ok .endRec := by decide
theorem test_decode_term : decode true 0b010100000000000000000000#24 = .ok .term := by decide
theorem test_decode_data2 : decode false 0b011000001000000010000001#24 = .ok (.data2 0x80#8 0x81#8) := by decide

theorem test_decode_term_disabled : decode false 0x500000#24 = .error .termDisabled := by decide
theorem test_decode_nop_stray_bit : decode false 0x000001#24 = .error .operandNotZero := by decide
theorem test_decode_nop_reserved : decode false 0x010000#24 = .error .reservedBits := by decide
theorem test_decode_start_reserved : decode false 0x110000#24 = .error .reservedBits := by decide
theorem test_decode_begin_high_byte : decode false 0x200100#24 = .error .highByteNotZero := by decide
theorem test_decode_data_high_byte : decode false 0x300112#24 = .error .highByteNotZero := by decide
theorem test_decode_data2_reserved : decode false 0x610000#24 = .error .reservedBits := by decide
theorem test_decode_end_stray_bit : decode false 0x400001#24 = .error .operandNotZero := by decide
theorem test_decode_term_stray_bit : decode true 0x500100#24 = .error .operandNotZero := by decide
theorem test_decode_undefined_opcodes :
    decode true 0x700000#24 = .error .undefinedOpcode ∧ decode true 0xF00000#24 = .error .undefinedOpcode := by decide

theorem test_table_word_data2 : decodeTableWord 24 0x608081 = some (.data2 0x80#8 0x81#8) := by decide
theorem test_table_word_term : decodeTableWord 24 0x500000 = some .term := by decide
theorem test_table_word_illegal : decodeTableWord 24 0x7ABCDE = none := by decide

/-! ### Single steps, from 95_test_vectors.md section 2 -/

theorem test_nop_in_record : after (exec .nop (openRec 3#8 0#5 5#16)) = some (openRec 3#8 0#5 5#16) := by decide

theorem test_start_from_reset :
    (after (exec (.start 0xFFFF#16) State.reset)).map (fun s => (s.addr, s.total, s.phase)) =
      some (0xFFFF#16, 0#16, .idle) := by decide

theorem test_start_in_record_is_E_SEQ :
    (after (exec (.start 5#16) (openRec 1#8 0#5 3#16))).map (fun s => (s.err, s.fcmd, s.addr, s.phase)) =
      some (.seq, 0x100005#24, 0x0200#16, .recording) := by decide

theorem test_begin_24 :
    (after (exec (.beginRec 24#8) State.reset)).map (fun s => (s.len, s.cnt, s.csum, s.phase)) =
      some (24#8, 0#5, 0x001A#16, .recording) := by decide

theorem test_begin_25_is_E_LEN :
    (after (exec (.beginRec 25#8) State.reset)).map (fun s => (s.err, s.fcmd, s.phase, s.len)) =
      some (.len, 0x200019#24, .idle, 0#8) := by decide

theorem test_data_carries_into_high_byte :
    (after (exec (.data 0xFF#8) (openRec 1#8 0#5 0x0001#16))).map (fun s => (s.csum, s.cnt)) =
      some (0x0100#16, 1#5) := by decide

theorem test_data_in_empty_record_is_E_OVR :
    (after (exec (.data 1#8) (openRec 0#8 0#5 2#16))).map (fun s => (s.err, s.cnt, s.csum)) =
      some (.ovr, 0#5, 2#16) := by decide

theorem test_data2_adds_both :
    (after (exec (.data2 0x80#8 0x81#8) (openRec 2#8 0#5 0x0004#16))).map (fun s => (s.csum, s.cnt)) =
      some (0x0105#16, 2#5) := by decide

theorem test_data2_with_one_left_is_E_OVR_whole :
    (after (exec (.data2 3#8 4#8) (openRec 3#8 2#5 0x0008#16))).map (fun s => (s.err, s.fcmd, s.cnt, s.csum)) =
      some (.ovr, 0x600304#24, 2#5, 0x0008#16) := by decide

theorem test_end_wraps_cursor :
    (after (exec .endRec { openRec 24#8 24#5 0x19FE#16 with addr := 0xFFFF#16, total := 0xFFF0#16 })).map
        (fun s => (s.outAddr, s.outCsum, s.addr, s.total, s.phase)) =
      some (0xFFFF#16, 0x19FE#16, 0x0017#16, 0x0008#16, .idle) := by decide

theorem test_end_with_missing_byte_is_E_UND :
    (after (exec .endRec (openRec 2#8 1#5 0x0058#16))).map (fun s => (s.err, s.fcmd, s.phase, s.outValid)) =
      some (.und, 0x400000#24, .recording, false) := by decide

theorem test_term_largest_sum :
    (after (exec .term { termReset with total := 0xFFFF#16 })).map
        (fun s => (s.outLen, s.outAddr, s.outCsum, s.csum, s.phase, s.addr)) =
      some (0#8, 0xFFFF#16, 0x01FE#16, 0x01FE#16, .done, 0x0200#16) := by decide

theorem test_term_twice_is_E_SEQ :
    (after (exec .term { termReset with phase := .done })).map (fun s => (s.err, s.fcmd)) =
      some (.seq, 0x500000#24) := by decide

/-! ### Edges -/

theorem test_reset_edge_wins_over_command :
    (after (step (haltedState.withInputs [Edge.reset true 0x100000#24]))).map (fun s => (s.addr, s.err, s.phase)) =
      some (0x0200#16, .none, .idle) := by decide

theorem test_halted_ignores_start :
    after (step (haltedState.withInputs [Edge.word 0x100000#24])) = some haltedState := by decide

theorem test_illegal_word_outranks_phase :
    (after (step (State.reset.withInputs [Edge.word 0x300112#24]))).map (fun s => (s.err, s.fcmd)) =
      some (.ill, 0x300112#24) := by decide

theorem test_term_word_without_termEn :
    (after (step (State.reset.withInputs [Edge.word 0x500000#24]))).map (fun s => (s.err, s.phase)) =
      some (.ill, .idle) := by decide

theorem test_fetch_word_runs_start :
    (after (step (State.reset.withFetchWord 24 0x101234))).map (fun s => (s.addr, s.err)) =
      some (0x1234#16, .none) := by decide

theorem test_fetch_word_runs_term :
    (after (step (State.reset.withFetchWord 24 0x500000))).map (fun s => (s.phase, s.err)) =
      some (.done, .none) := by decide

/-- STATUS of the halted state of 95_test_vectors.md P3: LEN 2, CNT 1, ERR 5, HALTED, PHASE REC. -/
theorem test_status_halted : status haltedState = 0x020159#24 := by decide

/-! ### Assembler and pseudo-instructions -/

theorem test_assemble_data2 : assembleLine "DATA2 0x80, 129 ; two bytes".toList = some [.data2 0x80#8 0x81#8] := by decide
theorem test_assemble_refuses_too_large : assembleLine "START 65536".toList = none := by decide
theorem test_assemble_begin_25 : assembleLine "BEGIN 25".toList = some [.beginRec 25#8] := by decide
theorem test_assemble_recordp :
    assembleLine "RECORDP 1, 2, 3".toList = some [.beginRec 3#8, .data2 1#8 2#8, .data 3#8, .endRec] := by decide
theorem test_assemble_encode_empty : assembleLine "ENCODE 0x0200".toList = some [.start 0x0200#16] := by decide
theorem test_assemble_words : assemble "START 0\nEND" = some [0x100000#24, 0x400000#24] := by decide

/-! ### Witnesses: the hypotheses of each statement can be met, clause by clause, at the edge of their range -/

theorem witness_NopDoesNothing_stray_bit :
    State.reset.err = .none ∧ (0x000001#24 : CmdWord).extractLsb' 20 4 = 0x0#4 ∧ (0x000001#24 : CmdWord) ≠ 0x000000#24 := by
  decide

theorem witness_StartBeginsRun_idle_and_done :
    (State.reset.err = .none ∧ (State.reset.phase = .idle ∨ State.reset.phase = .done)) ∧
    (({ termReset with phase := .done } : State).err = .none ∧ ({ termReset with phase := .done } : State).phase = .done) := by
  decide

theorem witness_StartBeginsRun_recording :
    (openRec 1#8 0#5 3#16).err = .none ∧ (openRec 1#8 0#5 3#16).phase = .recording := by decide

theorem witness_StartBeginsRun_reserved :
    State.reset.err = .none ∧ (0x110000#24 : CmdWord).extractLsb' 20 4 = 0x1#4 ∧
      (0x110000#24 : CmdWord).extractLsb' 16 4 ≠ 0#4 := by decide

theorem witness_BeginOpensRecord_lengths :
    State.reset.err = .none ∧ State.reset.phase = .idle ∧ (0#8 : Byte).toNat ≤ 24 ∧ (24#8 : Byte).toNat ≤ 24 ∧
      24 < (25#8 : Byte).toNat ∧ 24 < (255#8 : Byte).toNat := by decide

theorem witness_BeginOpensRecord_out_of_phase :
    (openRec 1#8 0#5 3#16).err = .none ∧ (openRec 1#8 0#5 3#16).phase ≠ .idle ∧
      ({ termReset with phase := .done } : State).phase ≠ .idle := by decide

theorem witness_BeginOpensRecord_illegal :
    State.reset.err = .none ∧
    ((0x200100#24 : CmdWord).extractLsb' 20 4 = 0x2#4 ∧ (0x200100#24 : CmdWord).extractLsb' 8 8 ≠ 0#8) ∧
    ((0x210000#24 : CmdWord).extractLsb' 20 4 = 0x2#4 ∧ (0x210000#24 : CmdWord).extractLsb' 16 4 ≠ 0#4) := by decide

theorem witness_DataAddsOneByte_last_byte_fits :
    (openRec 24#8 23#5 0#16).err = .none ∧ (openRec 24#8 23#5 0#16).phase = .recording ∧
      (openRec 24#8 23#5 0#16).cnt.toNat + 1 ≤ (openRec 24#8 23#5 0#16).len.toNat := by decide

theorem witness_DataAddsOneByte_full :
    (openRec 24#8 24#5 0#16).err = .none ∧ (openRec 24#8 24#5 0#16).phase = .recording ∧
      (openRec 24#8 24#5 0#16).len.toNat < (openRec 24#8 24#5 0#16).cnt.toNat + 1 := by decide

theorem witness_DataAddsOneByte_out_of_phase :
    State.reset.err = .none ∧ State.reset.phase ≠ .recording := by decide

theorem witness_DataAddsOneByte_illegal :
    State.reset.err = .none ∧
    ((0x300112#24 : CmdWord).extractLsb' 20 4 = 0x3#4 ∧ (0x300112#24 : CmdWord).extractLsb' 8 8 ≠ 0#8) ∧
    ((0x310000#24 : CmdWord).extractLsb' 20 4 = 0x3#4 ∧ (0x310000#24 : CmdWord).extractLsb' 16 4 ≠ 0#4) := by decide

theorem witness_DataTwoAddsTwoBytes_last_pair_fits :
    (openRec 24#8 22#5 0#16).err = .none ∧ (openRec 24#8 22#5 0#16).phase = .recording ∧
      (openRec 24#8 22#5 0#16).cnt.toNat + 2 ≤ (openRec 24#8 22#5 0#16).len.toNat := by decide

theorem witness_DataTwoAddsTwoBytes_one_left :
    (openRec 24#8 23#5 0#16).err = .none ∧ (openRec 24#8 23#5 0#16).phase = .recording ∧
      (openRec 24#8 23#5 0#16).len.toNat < (openRec 24#8 23#5 0#16).cnt.toNat + 2 := by decide

theorem witness_DataTwoAddsTwoBytes_out_of_phase :
    State.reset.err = .none ∧ State.reset.phase ≠ .recording := by decide

theorem witness_DataTwoAddsTwoBytes_illegal :
    State.reset.err = .none ∧ (0x610000#24 : CmdWord).extractLsb' 20 4 = 0x6#4 ∧
      (0x610000#24 : CmdWord).extractLsb' 16 4 ≠ 0#4 := by decide

theorem witness_EndClosesRecord_complete :
    (openRec 0#8 0#5 2#16).err = .none ∧ (openRec 0#8 0#5 2#16).phase = .recording ∧
      (openRec 0#8 0#5 2#16).cnt.toNat = (openRec 0#8 0#5 2#16).len.toNat ∧
      (openRec 24#8 24#5 2#16).cnt.toNat = (openRec 24#8 24#5 2#16).len.toNat := by decide

theorem witness_EndClosesRecord_incomplete :
    (openRec 24#8 23#5 2#16).err = .none ∧ (openRec 24#8 23#5 2#16).phase = .recording ∧
      (openRec 24#8 23#5 2#16).cnt.toNat ≠ (openRec 24#8 23#5 2#16).len.toNat := by decide

theorem witness_EndClosesRecord_out_of_phase : State.reset.err = .none ∧ State.reset.phase ≠ .recording := by decide

theorem witness_EndClosesRecord_illegal :
    State.reset.err = .none ∧ (0x400001#24 : CmdWord).extractLsb' 20 4 = 0x4#4 ∧
      (0x400001#24 : CmdWord).extractLsb' 0 20 ≠ 0#20 ∧ (0x480000#24 : CmdWord).extractLsb' 0 20 ≠ 0#20 := by decide

theorem witness_TermProducesTerminator_idle :
    termReset.err = .none ∧ termReset.cfg.termEn = true ∧ termReset.phase = .idle := by decide

theorem witness_TermProducesTerminator_out_of_phase :
    ({ termReset with phase := .done } : State).err = .none ∧
    ({ termReset with phase := .done } : State).cfg.termEn = true ∧
    ({ termReset with phase := .done } : State).phase ≠ .idle := by decide

theorem witness_TermProducesTerminator_disabled :
    State.reset.err = .none ∧ State.reset.cfg.termEn = false := by decide

theorem witness_TermProducesTerminator_illegal :
    termReset.err = .none ∧ (0x500100#24 : CmdWord).extractLsb' 20 4 = 0x5#4 ∧
      (0x500100#24 : CmdWord).extractLsb' 0 20 ≠ 0#20 := by decide

theorem witness_HeaderSumFormula : (24#8 : Byte).toNat ≤ 24 := by decide

theorem witness_DoneAcceptsOnlyNopAndStart :
    ({ termReset with phase := .done } : State).err = .none ∧
    ({ termReset with phase := .done } : State).cfg.termEn = true ∧
    ({ termReset with phase := .done } : State).phase = .done ∧
    (termReset.err = .none ∧ termReset.cfg.termEn = true ∧ termReset.phase = .idle) ∧
    Instr.endRec ≠ .nop := by decide

theorem witness_DoneAcceptsOnlyNopAndStart_others :
    Instr.endRec ≠ .nop ∧ ∀ a : Half, Instr.endRec ≠ .start a :=
  ⟨by decide, fun _ h => by cases h⟩

theorem witness_DecodeEncodeRoundTrip : Instr.wellFormed true .term = true := by decide

theorem witness_DecodedWordIsItsEncoding : decode false 0x608081#24 = .ok (.data2 0x80#8 0x81#8) := by decide

theorem witness_IllegalWordRaisesEIll_reserved_and_opcode :
    State.reset.err = .none ∧ IllegalByClauses false 0x010000#24 ∧ IllegalByClauses false 0x700000#24 ∧
      IllegalByClauses false 0xF00000#24 := by decide

theorem witness_IllegalWordRaisesEIll_operand :
    IllegalByClauses false 0x000001#24 ∧ IllegalByClauses false 0x400001#24 ∧ IllegalByClauses true 0x508000#24 := by
  decide

theorem witness_IllegalWordRaisesEIll_high_byte_and_term :
    IllegalByClauses false 0x200100#24 ∧ IllegalByClauses false 0x300112#24 ∧ IllegalByClauses false 0x500000#24 := by
  decide

theorem witness_IllegalWordRaisesEIll_legal :
    ¬ IllegalByClauses false 0x200018#24 ∧ ¬ IllegalByClauses true 0x500000#24 := by decide

theorem witness_FaultActionWritesErrAndFcmd : ErrCode.und ≠ .none := by decide

theorem witness_FaultingWordIsPrecise :
    acceptWord 0x400000#24 (openRec 2#8 1#5 0x0058#16) = .next haltedState ∧
      haltedState.err ≠ (openRec 2#8 1#5 0x0058#16).err := ⟨rfl, by decide⟩

theorem witness_SequenceErrorExactlyOutOfPhase :
    State.reset.err = .none ∧ Instr.wellFormed State.reset.cfg.termEn .endRec = true ∧
      outOfPhase .endRec State.reset.phase = true ∧ outOfPhase (.beginRec 1#8) State.reset.phase = false := by decide

theorem witness_ErrorPriority_halted :
    acceptWord 0x7ABCDE#24 haltedState = .next haltedState ∧ haltedState.err ≠ .none := ⟨rfl, by decide⟩

theorem witness_ErrorPriority_illegal :
    acceptWord 0x300112#24 State.reset = .next (raise .ill 0x300112#24 State.reset) ∧ State.reset.err = .none ∧
      decode State.reset.cfg.termEn 0x300112#24 = .error .highByteNotZero := ⟨rfl, by decide⟩

theorem witness_ErrorPriority_out_of_phase :
    acceptWord 0x200019#24 (openRec 1#8 0#5 3#16) = .next (raise .seq 0x200019#24 (openRec 1#8 0#5 3#16)) ∧
      decode false 0x200019#24 = .ok (.beginRec 25#8) ∧ legal (.beginRec 25#8) .recording = false := ⟨rfl, by decide⟩

theorem witness_ErrorPriority_operand :
    acceptWord 0x200019#24 State.reset = .next (raise .len 0x200019#24 State.reset) ∧
      decode false 0x200019#24 = .ok (.beginRec 25#8) ∧ legal (.beginRec 25#8) .idle = true := ⟨rfl, by decide⟩

theorem witness_HaltLastsUntilReset :
    haltedState.err ≠ .none ∧
      ∀ e ∈ ((haltedState.withInputs [Edge.word 0x100000#24, Edge.reset false 0#24]).inputs.take 1), e.rst = false := by
  decide

theorem witness_HaltLastsUntilReset_reset :
    (haltedState.withInputs [Edge.reset false 0#24]).inputs = Edge.reset false 0#24 :: [] ∧
      (Edge.reset false 0#24).rst = true := by decide

theorem witness_OpenRecordEndsOnlyByEndOrReset :
    ((openRec 0#8 0#5 2#16).withInputs [Edge.word 0x400000#24]).inputs = Edge.word 0x400000#24 :: [] ∧
      (openRec 0#8 0#5 2#16).phase = .recording ∧
      (after (step ((openRec 0#8 0#5 2#16).withInputs [Edge.word 0x400000#24]))).isSome = true := by decide

theorem witness_ResetEdgeRestoresEveryRegister :
    (haltedState.withInputs [⟨true, true, 0x100000#24⟩]).inputs = ⟨true, true, 0x100000#24⟩ :: [] := by decide

theorem witness_ResetValues_start :
    State.reset.err = .none ∧ State.reset.fcmd = 0#24 ∧ State.reset.phase = .idle ∧
      exec (.start State.reset.cfg.resetAddr) State.reset = .next State.reset := ⟨rfl, rfl, rfl, rfl⟩

theorem witness_StepRunsDecodedCommand :
    (State.reset.withInputs [⟨false, true, 0x200018#24⟩]).inputs = ⟨false, true, 0x200018#24⟩ :: [] ∧
      decode State.reset.cfg.termEn 0x200018#24 = .ok (.beginRec 24#8) := by decide

theorem witness_RisingEdgeByPins :
    (State.reset.withInputs [Edge.reset true 0#24, Edge.word 0x7ABCDE#24, Edge.idle 0xFFFFFF#24]).inputs =
        Edge.reset true 0#24 :: [Edge.word 0x7ABCDE#24, Edge.idle 0xFFFFFF#24] ∧
      (Edge.reset true 0#24).rst = true ∧ (Edge.word 0x7ABCDE#24).rst = false ∧
      (Edge.word 0x7ABCDE#24).cmdValid = true ∧ (Edge.idle 0xFFFFFF#24).rst = false ∧
      (Edge.idle 0xFFFFFF#24).cmdValid = false := by decide

theorem witness_WriteMatrix_changes :
    exec .endRec (openRec 1#8 1#5 3#16) =
        .next (advance (latchResult 1#8 0x0200#16 3#16 (openRec 1#8 1#5 3#16))) ∧
      (advance (latchResult 1#8 0x0200#16 3#16 (openRec 1#8 1#5 3#16))).addr ≠ (openRec 1#8 1#5 3#16).addr :=
  ⟨rfl, by decide⟩

theorem witness_WriteMatrix_faulting :
    exec .endRec State.reset = .next (raise .seq 0x400000#24 State.reset) ∧
      (raise .seq 0x400000#24 State.reset).err ≠ State.reset.err := ⟨rfl, by decide⟩

theorem witness_StepKeepsInvariant :
    ((openRec 24#8 23#5 0x18FF#16).withInputs [Edge.word 0x3000FF#24]).Inv ∧
      step ((openRec 24#8 23#5 0x18FF#16).withInputs [Edge.word 0x3000FF#24]) =
        .next (addPayload [0xFF#8] (openRec 24#8 23#5 0x18FF#16)) := ⟨by decide, rfl⟩

theorem witness_ReachableStatesAreBounded : Reachable State.reset := ⟨Config.standard, [], 0, rfl⟩

theorem witness_RecordResultWindow_idle :
    (State.reset.withInputs [Edge.idle 0#24]).inputs = Edge.idle 0#24 :: [] ∧ (Edge.idle 0#24).rst = false ∧
      step (State.reset.withInputs [Edge.idle 0#24]) = .next State.reset ∧ (Edge.idle 0#24).cmdValid = false :=
  ⟨rfl, rfl, rfl, rfl⟩

theorem witness_RecordResultWindow_valid_stays :
    step (({ State.reset with outValid := true } : State).withInputs [Edge.idle 0#24]) =
        .next { State.reset with outValid := true } ∧ (Edge.idle 0#24).rst = false := ⟨rfl, rfl⟩

theorem witness_RecordResultWindow_end :
    step ((openRec 0#8 0#5 2#16).withInputs [Edge.word 0x400000#24]) =
        .next (advance (latchResult 0#8 0x0200#16 2#16 (openRec 0#8 0#5 2#16))) ∧
      (advance (latchResult 0#8 0x0200#16 2#16 (openRec 0#8 0#5 2#16))).err = .none := ⟨rfl, rfl⟩

theorem witness_RecordResultWindow_begin :
    step (State.reset.withInputs [Edge.word 0x200000#24]) = .next (openRecord 0#8 State.reset) ∧
      (openRecord 0#8 State.reset).err = .none ∧ (0x200000#24 : CmdWord).extractLsb' 20 4 = 0x2#4 :=
  ⟨rfl, rfl, rfl⟩

theorem witness_RecordResultWindow_start :
    step (({ State.reset with outValid := true } : State).withInputs [Edge.word 0x10FFFF#24]) =
        .next (startRun 0xFFFF#16 State.reset) ∧
      (startRun 0xFFFF#16 State.reset).err = .none ∧ (0x10FFFF#24 : CmdWord).extractLsb' 20 4 = 0x1#4 :=
  ⟨rfl, rfl, rfl⟩

theorem witness_RecordResultWindow_term :
    step (termReset.withInputs [Edge.word 0x500000#24]) =
        .next (enterDone 0#16 (latchResult 0#8 0#16 0#16 termReset)) ∧
      (enterDone 0#16 (latchResult 0#8 0#16 0#16 termReset)).err = .none := ⟨rfl, rfl⟩

theorem witness_RecordResultWindow_fault :
    step (({ State.reset with outValid := true } : State).withInputs [Edge.word 0x400000#24]) =
        .next (raise .seq 0x400000#24 { State.reset with outValid := true }) ∧
      (raise .seq 0x400000#24 { State.reset with outValid := true }).err ≠ .none := ⟨rfl, by decide⟩

theorem witness_EveryEdgeGivesANextState : State.reset.inputs = [] := rfl

theorem witness_RecordChecksumLaw :
    LegalPayload [] ∧ LegalPayload [.data 1#8, .nop, .data2 2#8 3#8] ∧ LegalPayload (List.replicate 12 (.data2 0#8 0#8)) ∧
      State.reset.err = .none ∧ State.reset.phase = .idle := by decide

theorem witness_SplitAndOrderIndependence :
    State.reset.err = .none ∧ State.reset.phase = .idle ∧
      (delivered [.data 1#8, .data2 2#8 3#8]).Perm (delivered [.data2 3#8 1#8, .nop, .data 2#8]) ∧
      LegalPayload [.data 1#8, .data2 2#8 3#8] ∧ LegalPayload [.data2 3#8 1#8, .nop, .data 2#8] := by decide

theorem witness_SplitAndOrderIndependence_record :
    State.reset.err = .none ∧ State.reset.phase = .idle ∧ (List.replicate 24 (0xFF#8 : Byte)).length ≤ 24 := by decide

theorem witness_ChecksumNeverWraps :
    (24#8 : Byte).toNat ≤ 24 ∧ (List.replicate 24 (0xFF#8 : Byte)).length = (24#8 : Byte).toNat := by decide

theorem witness_CursorAndTotalLaw_end :
    exec .endRec (openRec 24#8 24#5 0x001A#16) =
        .next (advance (latchResult 24#8 0x0200#16 0x001A#16 (openRec 24#8 24#5 0x001A#16))) ∧
      (advance (latchResult 24#8 0x0200#16 0x001A#16 (openRec 24#8 24#5 0x001A#16))).addr ≠ 0x0200#16 :=
  ⟨rfl, by decide⟩

theorem witness_CursorAndTotalLaw_records :
    (∀ is ∈ [[Instr.data 1#8], [], [.data2 2#8 3#8]], LegalPayload is) ∧ State.reset.err = .none ∧
      (State.reset.phase = .idle ∨ State.reset.phase = .done) := by decide

theorem witness_RecordsAreContiguous_gap :
    State.reset.err = .none ∧ State.reset.phase = .idle ∧ LegalPayload [.data 1#8] ∧ LegalPayload [.data2 2#8 3#8] ∧
      ∀ e ∈ [Edge.idle 0xFFFFFF#24, Edge.word 0x000000#24], isActive e = false := by decide

theorem witness_TerminatorCarriesRunTotal :
    (∀ is ∈ [[Instr.data 1#8], [.data2 2#8 3#8]], LegalPayload is) ∧ termReset.err = .none ∧
      (termReset.phase = .idle ∨ termReset.phase = .done) ∧ termReset.cfg.termEn = true ∧ withTerm.termEn = true := by
  decide

theorem witness_ZeroLengthRecord : State.reset.err = .none ∧ State.reset.phase = .idle := by decide

theorem witness_EncodeRunCompletes :
    State.reset.err = .none ∧ (State.reset.phase = .idle ∨ State.reset.phase = .done) := by decide

theorem witness_RecordsAreContiguous_addresses :
    (65535 : Nat) < 65536 ∧ payloadAddr 0x0200#16 65535 = payloadAddr 0x0200#16 65535 ∧
      payloadAddr 0xFFFF#16 1 = 0x0000#16 := by decide

end Sys2Proof.Tests
end

section
/-! SUPPORT. The fields of STATUS, and what each output port reads from it (10_state.md R26, R28). -/

namespace Sys2Proof.Machine

section
variable (s : State)

theorem status_phase : (status s).extractLsb' 0 2 = phaseBits s.phase :=
  BitVec.extractLsb'_append_eq_right

theorem status_valid : (status s).extractLsb' 2 1 = BitVec.ofBool s.outValid := by
  simp (disch := omega) only [status, BitVec.extractLsb'_append_eq_of_le]
  exact BitVec.extractLsb'_append_eq_right

theorem status_halted : (status s).extractLsb' 3 1 = BitVec.ofBool (halted s) := by
  simp (disch := omega) only [status, BitVec.extractLsb'_append_eq_of_le]
  exact BitVec.extractLsb'_append_eq_right

theorem status_err : (status s).extractLsb' 4 3 = errBits s.err := by
  simp (disch := omega) only [status, BitVec.extractLsb'_append_eq_of_le]
  exact BitVec.extractLsb'_append_eq_right

theorem status_termEn : (status s).extractLsb' 7 1 = BitVec.ofBool s.cfg.termEn := by
  simp (disch := omega) only [status, BitVec.extractLsb'_append_eq_of_le]
  exact BitVec.extractLsb'_append_eq_right

theorem status_cnt : (status s).extractLsb' 8 5 = s.cnt := by
  simp (disch := omega) only [status, BitVec.extractLsb'_append_eq_of_le]
  exact BitVec.extractLsb'_append_eq_right

theorem status_reserved : (status s).extractLsb' 13 3 = 0#3 := by
  simp (disch := omega) only [status, BitVec.extractLsb'_append_eq_of_le]
  exact BitVec.extractLsb'_append_eq_right

theorem status_len : (status s).extractLsb' 16 8 = s.len := by
  simp (disch := omega) only [status, BitVec.extractLsb'_append_eq_of_le]
  exact BitVec.extractLsb'_eq_self

theorem ofBool_halted : BitVec.ofBool (halted s) = if s.err = .none then 0#1 else 1#1 := by
  by_cases h : s.err = .none
  · simp [h, (halted_eq_false_iff s).2 h]
  · simp [h, (halted_eq_true_iff s).2 h]

/-- No port looks at what the host drives next: each is formed from the registers and the parameters. -/
theorem outputs_withInputs (ins : List Edge) : outputs (s.withInputs ins) = outputs s := rfl

end

theorem ofBool_eq_ite (b : Bool) : BitVec.ofBool b = if b then 1#1 else 0#1 := by
  cases b <;> rfl

/-- Settles O27: each field of STATUS is the piece of the concatenation at its place. -/
theorem statusLayout : Obligations.StatusLayout := by
  intro s
  refine ⟨?phase, ?valid, ?halted, ?err, ?termEn, status_cnt s, status_reserved s, status_len s⟩
  case phase =>
    rw [status_phase]
    cases s.phase <;> rfl
  case valid => rw [status_valid, ofBool_eq_ite]
  case halted => rw [status_halted, ofBool_halted]
  case err =>
    rw [status_err]
    cases s.err <;> rfl
  case termEn => rw [status_termEn, ofBool_eq_ite]

/-- Settles O28: `err_o` is the halted bit of STATUS, every other port its register. -/
theorem portsShowRegisters : Obligations.PortsShowRegisters := by
  intro s
  have herr : (outputs s).errO = if s.err = .none then 0#1 else 1#1 :=
    (status_halted s).trans (ofBool_halted s)
  exact ⟨rfl, rfl, rfl, rfl, rfl, rfl, ofBool_eq_ite s.outValid, rfl, herr, rfl, outputs_withInputs s⟩

end Sys2Proof.Machine
end

section
/-! SUPPORT. START from an error-free IDLE or DONE state, and the reset state beside it (10_state.md R32). -/

namespace Sys2Proof.Machine

theorem legal_start_iff (a : Half) (p : Phase) : legal (.start a) p = true ↔ p = .idle ∨ p = .done := by
  cases p <;> simp [legal]

theorem exec_start_ok (a : Half) {s : State} (h : s.err = .none) (hp : s.phase = .idle ∨ s.phase = .done) :
    exec (.start a) s = .next (startRun a s) :=
  exec_perform_ok (.start a) s _ h rfl ((legal_start_iff a s.phase).2 hp) rfl

/-- START RESET_ADDR writes what reset writes, and leaves the output latches, ERR and FCMD. -/
theorem startRun_resetAddr (s : State) :
    startRun s.cfg.resetAddr s =
      { applyReset s with outLen := s.outLen, outAddr := s.outAddr, outCsum := s.outCsum,
                          err := s.err, fcmd := s.fcmd } := rfl

/-- Settles O22: the reset table, and START RESET_ADDR beside reset. -/
theorem resetValues : Obligations.ResetValues := by
  refine ⟨rfl, rfl, rfl, rfl, rfl, rfl, rfl, rfl, rfl, rfl, rfl, rfl, fun _ _ => rfl, ?start⟩
  case start =>
    intro s t herr hfcmd hphase hexec
    rw [exec_start_ok _ herr hphase, startRun_resetAddr, herr, hfcmd] at hexec
    exact (Host.Outcome.next.inj hexec).symm

end Sys2Proof.Machine
end

section
/-! SUPPORT. What a command, a word and an edge can write, as the cases of the state after it; and the induction over the runs
that start at a reset, packaged once. -/

namespace Sys2Proof.Machine

/-- The state after a command: unchanged, the fault action with a code of 60_exceptions.md R83, or the command's own writes. -/
theorem exec_next_cases {i : Instr} {s t : State} (h : exec i s = .next t) :
    t = s ∨
    (∃ code w, code ≠ .reserved6 ∧ code ≠ .reserved7 ∧ t = raise code w s) ∨
    (legal i s.phase = true ∧ performOf i s = .ok t) := by
  rcases exec_cases i s with ⟨-, he⟩ | ⟨-, -, he⟩ | ⟨-, -, -, he⟩ | ⟨code, -, -, -, hp, he⟩ | ⟨s', -, -, hl, hp, he⟩
  · cases h.symm.trans he
    exact .inl rfl
  · cases h.symm.trans he
    exact .inr (.inl ⟨.ill, _, nofun, nofun, rfl⟩)
  · cases h.symm.trans he
    exact .inr (.inl ⟨.seq, _, nofun, nofun, rfl⟩)
  · cases h.symm.trans he
    have hcode : code ≠ .reserved6 ∧ code ≠ .reserved7 := by
      rcases performOf_error hp with ⟨rfl, -⟩ | ⟨rfl, -⟩ | ⟨rfl, -⟩ <;> exact ⟨nofun, nofun⟩
    exact .inr (.inl ⟨code, _, hcode.1, hcode.2, rfl⟩)
  · cases h.symm.trans he
    exact .inr (.inr ⟨hl, hp⟩)

/-- The state after an accepted word: as after a command, for some command. -/
theorem acceptWord_next_cases {w : CmdWord} {s t : State} (h : acceptWord w s = .next t) :
    t = s ∨
    (∃ code w', code ≠ .reserved6 ∧ code ≠ .reserved7 ∧ t = raise code w' s) ∨
    (∃ i, legal i s.phase = true ∧ performOf i s = .ok t) := by
  rcases acceptWord_cases w s with ⟨-, he⟩ | ⟨-, -, -, he⟩ | ⟨i, -, -, he⟩
  · cases h.symm.trans he
    exact .inl rfl
  · cases h.symm.trans he
    exact .inr (.inl ⟨.ill, w, nofun, nofun, rfl⟩)
  · exact (exec_next_cases (he.symm.trans h)).imp_right (.imp_right fun hi => ⟨i, hi⟩)

/-- The state after an edge: as after a word, or the reset state. -/
theorem onEdge_next_cases {e : Edge} {s t : State} (h : onEdge e s = .next t) :
    t = applyReset s ∨ t = s ∨
    (∃ code w, code ≠ .reserved6 ∧ code ≠ .reserved7 ∧ t = raise code w s) ∨
    (∃ i, legal i s.phase = true ∧ performOf i s = .ok t) := by
  cases hr : e.rst with
  | true =>
    cases h.symm.trans (onEdge_reset hr s)
    exact .inl rfl
  | false =>
    cases hv : e.cmdValid with
    | true => exact .inr (acceptWord_next_cases ((onEdge_word hr hv s).symm.trans h))
    | false =>
      cases h.symm.trans (onEdge_idle hr hv s)
      exact .inr (.inl rfl)

/-- A step is idle where the samples have ended, and otherwise acts on the next one. -/
theorem step_next_cases {s t : State} (h : step s = .next t) :
    t = s ∨ ∃ e later, s.inputs = e :: later ∧ onEdge e (s.withInputs later) = .next t := by
  cases hi : s.inputs with
  | nil =>
    cases h.symm.trans (step_of_nil hi)
    exact .inl rfl
  | cons e later => exact .inr ⟨e, later, rfl, (step_of_cons hi).symm.trans h⟩

/-- What every step keeps, every run keeps. -/
theorem run_induction {P : State → Prop} (hstep : ∀ s t, P s → step s = .next t → P t) {k : Nat} {s t : State}
    (hs : P s) (h : run k s = .next t) : P t := by
  induction k generalizing s with
  | zero =>
    cases h
    exact hs
  | succ k ih =>
    cases hu : step s with
    | next u => exact ih (hstep s u hs hu) ((run_succ_of_step hu).symm.trans h)
    | fault r => cases r
    | refused r =>
      rw [run_succ, hu] at h
      cases h

/-- What holds right after reset and is kept by every step holds of every reachable state. -/
theorem reachable_induction {P : State → Prop} (hreset : ∀ cfg ins, P (State.resetOf cfg ins))
    (hstep : ∀ s t, P s → step s = .next t → P t) {s : State} (h : Reachable s) : P s := by
  obtain ⟨cfg, ins, k, hrun⟩ := h
  exact run_induction hstep (hreset cfg ins) hrun

end Sys2Proof.Machine
end

section
/-! SUPPORT. The invariant `State.Inv` behind 10_state.md R30: one lemma per register update, then every command, edge and run. -/

namespace Sys2Proof.Machine

/-- `State.Inv` with its parts named, and without the reserved bits of STATUS, which are 0 in every state. -/
structure InvParts (s : State) : Prop where
  len_le : s.len.toNat ≤ 24
  cnt_le : s.cnt.toNat ≤ s.len.toNat
  phase_ne : s.phase ≠ .unused
  err_ne6 : s.err ≠ .reserved6
  err_ne7 : s.err ≠ .reserved7
  outLen_le : s.outLen.toNat ≤ 24
  csum_le : s.csum.toNat ≤ 0x19FE
  csum_recording : s.phase = .recording → s.csum.toNat ≤ s.len.toNat + 0x1FE + 0xFF * s.cnt.toNat

theorem inv_iff_parts (s : State) : s.Inv ↔ InvParts s where
  mp := fun ⟨⟨hlen, hcnt, hphase, h6, h7, hout, hcsum, _⟩, hrec⟩ =>
    ⟨hlen, hcnt, hphase, h6, h7, hout, hcsum, hrec⟩
  mpr := fun ⟨hlen, hcnt, hphase, h6, h7, hout, hcsum, hrec⟩ =>
    ⟨⟨hlen, hcnt, hphase, h6, h7, hout, hcsum, status_reserved s⟩, hrec⟩

/-- The header sum is the length and two address bytes (41_record.md R64). -/
theorem toNat_headerSum_le (n : Byte) (a : Half) : (headerSum n a).toNat ≤ n.toNat + 0x1FE := by
  have ha := a.isLt
  rw [toNat_headerSum]
  omega

/-- A payload byte adds at most 0xFF to the checksum, whether the sum wraps or not. -/
theorem toNat_sumBytes_le (c : Half) (bs : List Byte) : (sumBytes c bs).toNat ≤ c.toNat + 0xFF * bs.length := by
  induction bs generalizing c with
  | nil => simp [sumBytes_nil]
  | cons b bs ih =>
    have hb := b.isLt
    have hadd : (c + zext16 b).toNat ≤ c.toNat + b.toNat := by
      rw [BitVec.toNat_add, toNat_zext16]
      exact Nat.mod_le _ _
    rw [sumBytes_cons, List.length_cons]
    have := ih (c + zext16 b)
    omega

/-- CNT does not wrap while it stays within a legal length. -/
theorem toNat_cnt_add {c : BitVec 5} {n : Nat} (h : c.toNat + n ≤ 24) : (c + BitVec.ofNat 5 n).toNat = c.toNat + n := by
  rw [BitVec.toNat_add, BitVec.toNat_ofNat]
  omega

theorem resetOf_inv (cfg : Config) (ins : List Edge) : (State.resetOf cfg ins).Inv :=
  (inv_iff_parts _).2 ⟨Nat.zero_le _, Nat.zero_le _, nofun, nofun, nofun, Nat.zero_le _, Nat.zero_le _, nofun⟩

section
variable {s : State} (hs : s.Inv)
include hs

theorem withInputs_inv (ins : List Edge) : (s.withInputs ins).Inv := hs

theorem raise_inv {code : ErrCode} (w : CmdWord) (h6 : code ≠ .reserved6) (h7 : code ≠ .reserved7) :
    (raise code w s).Inv := by
  have hp := (inv_iff_parts s).1 hs
  exact (inv_iff_parts _).2 { hp with err_ne6 := h6, err_ne7 := h7 }

theorem startRun_inv (a : Half) : (startRun a s).Inv := by
  have hp := (inv_iff_parts s).1 hs
  exact (inv_iff_parts _).2
    { hp with len_le := Nat.zero_le _, cnt_le := Nat.zero_le _, phase_ne := nofun, csum_le := Nat.zero_le _,
              csum_recording := nofun }

theorem openRecord_inv {n : Byte} (hn : n.toNat ≤ maxLen) : (openRecord n s).Inv := by
  have hp := (inv_iff_parts s).1 hs
  have hlen : n.toNat ≤ 24 := hn
  have hcsum := toNat_headerSum_le n s.addr
  exact (inv_iff_parts _).2
    { hp with len_le := hlen, cnt_le := Nat.zero_le _, phase_ne := nofun,
              csum_le := by simp only [openRecord_csum]; omega, csum_recording := fun _ => hcsum }

theorem addPayload_inv {bs : List Byte} (hrec : s.phase = .recording)
    (hfit : s.cnt.toNat + bs.length ≤ s.len.toNat) : (addPayload bs s).Inv := by
  have hp := (inv_iff_parts s).1 hs
  have hlen := hp.len_le
  have hcnt : (addPayload bs s).cnt.toNat = s.cnt.toNat + bs.length := toNat_cnt_add (hfit.trans hlen)
  have hcsum : (addPayload bs s).csum.toNat ≤ s.len.toNat + 0x1FE + 0xFF * (s.cnt.toNat + bs.length) := by
    have hold := hp.csum_recording hrec
    have hnew := toNat_sumBytes_le s.csum bs
    rw [addPayload_csum]
    omega
  exact (inv_iff_parts _).2
    { hp with cnt_le := hcnt.trans_le hfit, csum_le := by omega, csum_recording := fun _ => hcnt ▸ hcsum }

/-- END latches a legal length, the record's own. -/
theorem advance_inv (a c : Half) : (advance (latchResult s.len a c s)).Inv := by
  have hp := (inv_iff_parts s).1 hs
  exact (inv_iff_parts _).2 { hp with phase_ne := nofun, outLen_le := hp.len_le, csum_recording := nofun }

/-- TERM leaves CSUM a header sum of length 0. -/
theorem enterDone_inv (a : Half) :
    (enterDone (headerSum 0#8 a) (latchResult 0#8 a (headerSum 0#8 a) s)).Inv := by
  have hp := (inv_iff_parts s).1 hs
  have hsum : (headerSum 0#8 a).toNat ≤ 0x19FE := (toNat_headerSum_le 0#8 a).trans (by decide)
  exact (inv_iff_parts _).2
    { hp with phase_ne := nofun, outLen_le := Nat.zero_le _, csum_le := hsum, csum_recording := nofun }

end

theorem recording_of_legal_data {b : Byte} {p : Phase} (h : legal (.data b) p = true) : p = .recording := by
  cases p <;> simp_all [legal]

theorem recording_of_legal_data2 {b0 b1 : Byte} {p : Phase} (h : legal (.data2 b0 b1) p = true) :
    p = .recording := by
  cases p <;> simp_all [legal]

theorem performOf_inv {i : Instr} {s t : State} (hs : s.Inv) (hl : legal i s.phase = true)
    (h : performOf i s = .ok t) : t.Inv := by
  rcases performOf_ok h with ⟨-, rfl⟩ | ⟨a, -, rfl⟩ | ⟨n, -, hn, rfl⟩ | ⟨b, rfl, hfit, rfl⟩ |
    ⟨b0, b1, rfl, hfit, rfl⟩ | ⟨-, -, rfl⟩ | ⟨-, rfl⟩
  · exact hs
  · exact startRun_inv hs a
  · exact openRecord_inv hs hn
  · exact addPayload_inv hs (recording_of_legal_data hl) hfit
  · exact addPayload_inv hs (recording_of_legal_data2 hl) hfit
  · exact advance_inv hs s.addr s.csum
  · exact enterDone_inv hs s.total

theorem onEdge_inv {e : Edge} {s t : State} (hs : s.Inv) (h : onEdge e s = .next t) : t.Inv := by
  rcases onEdge_next_cases h with rfl | rfl | ⟨code, w, h6, h7, rfl⟩ | ⟨i, hl, hp⟩
  · exact resetOf_inv s.cfg s.inputs
  · exact hs
  · exact raise_inv hs w h6 h7
  · exact performOf_inv hs hl hp

theorem step_inv (s t : State) (hs : s.Inv) (h : step s = .next t) : t.Inv := by
  rcases step_next_cases h with rfl | ⟨e, later, -, he⟩
  · exact hs
  · exact onEdge_inv (withInputs_inv hs later) he

theorem reachable_inv {s : State} (h : Reachable s) : s.Inv :=
  reachable_induction resetOf_inv step_inv h

theorem toNat_phaseBits_le {p : Phase} (h : p ≠ .unused) : (phaseBits p).toNat ≤ 2 := by
  cases p with
  | unused => exact absurd rfl h
  | _ => decide

theorem toNat_errBits_le {c : ErrCode} (h6 : c ≠ .reserved6) (h7 : c ≠ .reserved7) : (errBits c).toNat ≤ 5 := by
  cases c with
  | reserved6 => exact absurd rfl h6
  | reserved7 => exact absurd rfl h7
  | _ => decide

/-- Settles O32: reset has the inductive invariant, every step keeps it, and it implies the bounds. -/
theorem reachableStatesAreBounded : Obligations.ReachableStatesAreBounded := by
  intro s hs
  obtain ⟨⟨hlen, hcnt, hphase, h6, h7, hout, hcsum, hreserved⟩, -⟩ := reachable_inv hs
  exact ⟨hlen, hcnt, toNat_phaseBits_le hphase, toNat_errBits_le h6 h7, hout, hcsum, hreserved⟩

end Sys2Proof.Machine
end

section
/-! SUPPORT. Every well-formed command is read back from its word (30_encoding.md R49, R54), so the word on the pins runs the
command; a NOP's word is as good as an idle edge. -/

namespace Sys2Proof.Machine

theorem decode_packWord (termEn : Bool) (op : BitVec 4) (arg : Half) :
    decode termEn (packWord op arg) = decodeOp termEn (packWord op arg) :=
  if_pos (rsvField_packWord op arg)

theorem decode_encode {termEn : Bool} {i : Instr} (hw : i.wellFormed termEn = true) :
    decode termEn (encode i) = .ok i := by
  cases i with
  | term =>
    have ht : termEn = true := hw
    simp [encode, decode_packWord, decodeOp, ht]
  | _ => simp [encode, decode_packWord, decodeOp]

/-- The word of a command runs that command. -/
theorem acceptWord_encode {i : Instr} {s : State} (h : s.err = .none) (hw : i.wellFormed s.cfg.termEn = true) :
    acceptWord (encode i) s = exec i s := by
  rcases acceptWord_cases (encode i) s with ⟨hne, -⟩ | ⟨r, -, hd, -⟩ | ⟨j, -, hd, he⟩
  · exact absurd h hne
  · cases hd.symm.trans (decode_encode hw)
  · cases hd.symm.trans (decode_encode hw)
    exact he

theorem exec_nop (s : State) : exec .nop s = .next s := by
  by_cases h : s.err = .none
  · exact exec_perform_ok .nop s s h rfl rfl rfl
  · exact exec_halted .nop s h

theorem acceptWord_zero (s : State) : acceptWord 0#24 s = .next s := by
  by_cases h : s.err = .none
  · exact (acceptWord_encode (i := .nop) h rfl).trans (exec_nop s)
  · rcases acceptWord_cases 0#24 s with ⟨-, he⟩ | ⟨-, hn, -⟩ | ⟨-, hn, -⟩
    · exact he
    · exact absurd hn h
    · exact absurd hn h

/-- An idle edge and a NOP leave the state (70_reset_and_hazards.md R109). -/
theorem onEdge_inactive {e : Edge} (h : isActive e = false) (s : State) : onEdge e s = .next s := by
  obtain ⟨hrst, hcmd⟩ := Bool.or_eq_false_iff.1 h
  cases hv : e.cmdValid with
  | false => exact onEdge_idle hrst hv s
  | true =>
    have hzero : e.cmd = 0#24 := by simpa [hv] using hcmd
    rw [onEdge_word hrst hv, hzero, acceptWord_zero]

end Sys2Proof.Machine
end

section
/-! SUPPORT. Runs over a list of edges, whatever the host drives after them: how such runs compose, and what one edge of each kind
contributes. -/

namespace Sys2Proof.Machine

/-- The edges `es` take the registers from those of `s` to those of `t`, whatever
the host drives at the edges after them. -/
def Consumes (es : List Edge) (s t : State) : Prop :=
  ∀ later, run es.length (s.withInputs (es ++ later)) = .next (t.withInputs later)

theorem Consumes.run_feedEdges {es : List Edge} {s t : State} (h : Consumes es s t) :
    run es.length (s.feedEdges es) = .next (t.withInputs s.inputs) :=
  h s.inputs

theorem Consumes.run_feed {is : List Instr} {s t : State} (h : Consumes (is.map Edge.command) s t) :
    run is.length (s.feed is) = .next (t.withInputs s.inputs) := by
  have hrun := h.run_feedEdges
  rwa [List.length_map] at hrun

theorem Consumes.nil (s : State) : Consumes [] s s := fun _ => rfl

theorem Consumes.append {es fs : List Edge} {s t u : State} (h : Consumes es s t) (h' : Consumes fs t u) :
    Consumes (es ++ fs) s u := by
  intro later
  rw [List.length_append, List.append_assoc, run_add (h (fs ++ later))]
  exact h' later

theorem Consumes.single {e : Edge} {s t : State}
    (h : ∀ later, onEdge e (s.withInputs later) = .next (t.withInputs later)) : Consumes [e] s t := by
  intro later
  have hstep : step (s.withInputs ([e] ++ later)) = .next (t.withInputs later) := (step_of_cons rfl).trans (h later)
  exact run_succ_of_step hstep

theorem Consumes.cons {e : Edge} {es : List Edge} {s t u : State} (h : Consumes [e] s t) (h' : Consumes es t u) :
    Consumes (e :: es) s u :=
  h.append h'

/-- A command in phase whose own rule succeeds makes that rule's writes. -/
theorem consumes_command {i : Instr} {s t : State} (h : s.err = .none) (hw : i.wellFormed s.cfg.termEn = true)
    (hl : legal i s.phase = true) (hp : performOf i s = .ok t) : Consumes [Edge.command i] s t := by
  refine .single fun later => ?_
  have hperform : performOf i (s.withInputs later) = .ok (t.withInputs later) := by
    rw [performOf_withInputs, hp]
    rfl
  calc onEdge (Edge.command i) (s.withInputs later)
      _ = acceptWord (encode i) (s.withInputs later) := onEdge_word rfl rfl _
      _ = exec i (s.withInputs later) := acceptWord_encode h hw
      _ = .next (t.withInputs later) := exec_perform_ok i _ _ h hw hl hperform

/-- Idle edges and NOPs leave the registers, however many they are. -/
theorem consumes_gap {gap : List Edge} (h : ∀ e ∈ gap, isActive e = false) (s : State) : Consumes gap s s := by
  induction gap with
  | nil => exact .nil s
  | cons e gap ih =>
    obtain ⟨he, hgap⟩ := List.forall_mem_cons.1 h
    exact .cons (.single fun _ => onEdge_inactive he _) (ih hgap)

theorem consumes_start (a : Half) {s : State} (h : s.err = .none) (hp : s.phase = .idle ∨ s.phase = .done) :
    Consumes [Edge.command (.start a)] s (startRun a s) :=
  consumes_command h rfl ((legal_start_iff a s.phase).2 hp) rfl

end Sys2Proof.Machine
end

section
/-! SUPPORT. One legal record, from BEGIN to END, as one update of the registers (41_record.md R65 to R69). -/

namespace Sys2Proof.Machine

theorem delivered_nil : delivered [] = [] := rfl

theorem delivered_cons (i : Instr) (is : List Instr) : delivered (i :: is) = payloadOf i ++ delivered is :=
  List.flatMap_cons

theorem addPayload_nil (s : State) : addPayload [] s = s := by
  simp [addPayload, sumBytes_nil]

theorem addPayload_append (bs ds : List Byte) (s : State) :
    addPayload (bs ++ ds) s = addPayload ds (addPayload bs s) := by
  simp [addPayload, sumBytes_append, BitVec.ofNat_add, BitVec.add_assoc]

theorem takePayload_ok {bs : List Byte} {s : State} (h : s.cnt.toNat + bs.length ≤ s.len.toNat) :
    takePayload bs s = .ok (addPayload bs s) := by
  rcases takePayload_cases bs s with ⟨hover, -⟩ | ⟨-, hok⟩
  · omega
  · exact hok

/-- DATA, DATA2 and NOP are legal in REC whatever TERM_EN is, and add what they deliver if it fits. -/
theorem consumes_inner {i : Instr} {s : State} (hi : isInner i = true) (h : s.err = .none)
    (hrec : s.phase = .recording) (hfit : s.cnt.toNat + (payloadOf i).length ≤ s.len.toNat) :
    Consumes [Edge.command i] s (addPayload (payloadOf i) s) := by
  cases i with
  | nop => exact consumes_command h rfl rfl (congrArg Except.ok (addPayload_nil s).symm)
  | data b => exact consumes_command h rfl (hrec ▸ rfl) (takePayload_ok hfit)
  | data2 b0 b1 => exact consumes_command h rfl (hrec ▸ rfl) (takePayload_ok hfit)
  | _ => cases hi

/-- Inner commands whose payload fits in the open record add all of it. -/
theorem consumes_payload {is : List Instr} {s : State} (his : is.all isInner = true) (h : s.err = .none)
    (hrec : s.phase = .recording) (hlen : s.len.toNat ≤ 24)
    (hfit : s.cnt.toNat + (delivered is).length ≤ s.len.toNat) :
    Consumes (is.map Edge.command) s (addPayload (delivered is) s) := by
  induction is generalizing s with
  | nil =>
    rw [delivered_nil, addPayload_nil]
    exact .nil s
  | cons i is ih =>
    obtain ⟨hi, his⟩ := Bool.and_eq_true_iff.1 ((List.all_cons).symm.trans his)
    rw [delivered_cons, List.length_append] at hfit
    have hcnt : (addPayload (payloadOf i) s).cnt.toNat = s.cnt.toNat + (payloadOf i).length :=
      toNat_cnt_add (by omega)
    rw [delivered_cons, addPayload_append, List.map_cons]
    refine .cons (consumes_inner hi h hrec (by omega)) (ih his h hrec hlen ?_)
    rw [hcnt, addPayload_len]
    omega

/-- The registers after the legal record with payload `bs`: BEGIN's, the payload's and END's writes in turn. -/
def afterRecord (bs : List Byte) (s : State) : State :=
  let filled := addPayload bs (openRecord (chunkLength bs) s)
  advance (latchResult filled.len filled.addr filled.csum filled)

section
variable (bs : List Byte) (s : State)

@[simp] theorem afterRecord_addr : (afterRecord bs s).addr = add16 s.addr (zext16 (chunkLength bs)) := rfl
@[simp] theorem afterRecord_total : (afterRecord bs s).total = add16 s.total (zext16 (chunkLength bs)) := rfl
@[simp] theorem afterRecord_outLen : (afterRecord bs s).outLen = chunkLength bs := rfl
@[simp] theorem afterRecord_outAddr : (afterRecord bs s).outAddr = s.addr := rfl
@[simp] theorem afterRecord_phase : (afterRecord bs s).phase = .idle := rfl
@[simp] theorem afterRecord_err : (afterRecord bs s).err = s.err := rfl

end

theorem toNat_chunkLength {bs : List Byte} (h : bs.length ≤ maxLen) : (chunkLength bs).toNat = bs.length := by
  have hlt : bs.length < 2 ^ 8 := h.trans_lt (by decide)
  rw [chunkLength, BitVec.toNat_ofNat, Nat.mod_eq_of_lt hlt]

/-- A legal record runs through, from BEGIN to END, without an error. -/
theorem consumes_record {is : List Instr} {s : State} (his : LegalPayload is) (h : s.err = .none)
    (hidle : s.phase = .idle) : Consumes ((recordOf is).map Edge.command) s (afterRecord (delivered is) s) := by
  obtain ⟨hinner, hmax⟩ := his
  have hlen := toNat_chunkLength hmax
  have hbegin : Consumes [Edge.command (.beginRec (chunkLength (delivered is)))] s
      (openRecord (chunkLength (delivered is)) s) := by
    refine consumes_command h rfl (hidle ▸ rfl) (if_pos (decide_eq_true ?_))
    rwa [hlen]
  have hpayload : Consumes (is.map Edge.command) (openRecord (chunkLength (delivered is)) s)
      (addPayload (delivered is) (openRecord (chunkLength (delivered is)) s)) := by
    refine consumes_payload hinner h rfl (hlen.trans_le hmax) ?_
    simp [hlen]
  have hend : Consumes [Edge.command .endRec]
      (addPayload (delivered is) (openRecord (chunkLength (delivered is)) s)) (afterRecord (delivered is) s) := by
    refine consumes_command h rfl rfl (if_pos (decide_eq_true ?_))
    have hcnt : (0#5 + BitVec.ofNat 5 (delivered is).length).toNat = 0 + (delivered is).length :=
      toNat_cnt_add ((Nat.zero_add _).trans_le hmax)
    simpa [hlen] using hcnt
  have hrecord := (hbegin.append hpayload).append hend
  simpa [recordOf, recordBy] using hrecord

end Sys2Proof.Machine
end

section
/-! SUPPORT. The target addresses of payload bytes (20_memory.md R34, R35), and the contiguity of records (R46). -/

namespace Sys2Proof.Machine

theorem payloadAddr_eq_add (a : Half) (k : Nat) : payloadAddr a k = a + BitVec.ofNat 16 k :=
  add16_eq_add a _

theorem payloadAddr_payloadAddr (a : Half) (m k : Nat) : payloadAddr (payloadAddr a m) k = payloadAddr a (m + k) := by
  simp only [payloadAddr_eq_add, BitVec.ofNat_add, BitVec.add_assoc]

theorem payloadAddr_eq_iff (a : Half) (j k : Nat) :
    payloadAddr a j = payloadAddr a k ↔ j % 65536 = k % 65536 := by
  rw [payloadAddr_eq_add, payloadAddr_eq_add, BitVec.add_right_inj, ← BitVec.toNat_inj, BitVec.toNat_ofNat,
    BitVec.toNat_ofNat]

/-- Settles O40: a record starts at the cursor, which START sets and END moves by the record's length; idle edges and NOPs
leave it; target addresses are equal just where the byte numbers agree modulo 65536. -/
theorem recordsAreContiguous : Obligations.RecordsAreContiguous := by
  refine ⟨?first, ?following, payloadAddr_payloadAddr, ?distinct, ?periodic⟩
  case first =>
    intro s a is herr hphase his
    have hrun : Consumes ((Instr.start a :: recordOf is).map Edge.command) s
        (afterRecord (delivered is) (startRun a s)) :=
      (consumes_start a herr hphase).cons (consumes_record his herr rfl)
    exact ⟨_, hrun.run_feed, by simp⟩
  case following =>
    intro s is js gap herr hidle his hjs hgap
    have hfirst := (consumes_record his herr hidle).run_feed
    have hsecond := (consumes_gap hgap ((afterRecord (delivered is) s).withInputs s.inputs)).append
      (consumes_record hjs herr rfl)
    have hrun := hsecond.run_feedEdges
    rw [List.length_append, List.length_map] at hrun
    exact ⟨_, _, hfirst, hrun, by simp⟩
  case distinct =>
    intro a j k hj hk h
    have hmod := (payloadAddr_eq_iff a j k).1 h
    rwa [Nat.mod_eq_of_lt hj, Nat.mod_eq_of_lt hk] at hmod
  case periodic =>
    intro a k
    exact (payloadAddr_eq_iff a _ k).2 (Nat.add_mod_right k 65536)

end Sys2Proof.Machine
end

section
/-! SUPPORT. Words that stand for no command (60_exceptions.md R84), and the word of a command as its opcode word with the operand
in the low bits (30_encoding.md R49); the two run control commands by them (40_run_control.md). -/

namespace Sys2Proof.Machine

/-- A word that stands for no command of the instance raises E_ILL. -/
theorem acceptWord_of_decode_ne_ok {w : CmdWord} {s : State} (h : s.err = .none)
    (hw : ∀ i, decode s.cfg.termEn w ≠ .ok i) : acceptWord w s = .next (raise .ill w s) := by
  rcases acceptWord_cases w s with ⟨hne, -⟩ | ⟨-, -, -, he⟩ | ⟨i, -, hd, -⟩
  · exact absurd h hne
  · exact he
  · exact absurd hd (hw i)

/-- A nonzero RSV field makes any word illegal, whatever its opcode. -/
theorem acceptWord_of_rsvField_ne_zero {w : CmdWord} {s : State} (h : s.err = .none) (hr : rsvField w ≠ 0#4) :
    acceptWord w s = .next (raise .ill w s) :=
  acceptWord_of_decode_ne_ok h fun _ hd => hr (word_of_decode hd).1

/-- NOP's opcode has the one legal word 0. -/
theorem eq_zero_of_decode_of_opField_zero {termEn : Bool} {w : CmdWord} {i : Instr} (hop : opField w = 0x0#4)
    (hd : decode termEn w = .ok i) : w = 0#24 := by
  obtain ⟨hrsv, hdecode⟩ := word_of_decode hd
  have harg : argField w = 0#16 := by
    by_contra hne
    simp [decodeOp, hop, hne] at hdecode
  calc w = packWord (opField w) (argField w) := (packWord_fields w hrsv).symm
    _ = packWord 0x0#4 0#16 := by rw [hop, harg]
    _ = 0#24 := rfl

/-- The operand stands in the low 16 bits, which are 0 in the opcode's word. -/
theorem packWord_eq_or (op : BitVec 4) (arg : Half) : packWord op arg = packWord op 0#16 ||| arg.setWidth 24 := by
  have hext : arg.setWidth 24 = (0#4 ++ 0#4) ++ arg := BitVec.setWidth_eq_append (by decide)
  rw [hext, packWord, packWord, BitVec.or_append, BitVec.or_append]
  simp only [BitVec.or_zero, BitVec.zero_or]

theorem encode_start (a : Half) : encode (.start a) = 0x100000#24 ||| a.setWidth 24 :=
  packWord_eq_or 0x1#4 a

theorem step_inactive {e : Edge} (h : isActive e = false) (s : State) (later : List Edge) :
    step (s.withInputs (e :: later)) = .next (s.withInputs later) :=
  (step_of_cons rfl).trans (onEdge_inactive h _)

/-- Settles O1: NOP's rule changes nothing, halted or not, so its word is one more inactive edge; a stray bit beside
OP = 0 leaves no command. -/
theorem nopDoesNothing : Obligations.NopDoesNothing := by
  refine ⟨exec_nop, rfl, fun _ => rfl, ?strayBit, ?idleEdge⟩
  case strayBit =>
    intro w s herr hop hne
    exact acceptWord_of_decode_ne_ok herr fun _ hd => hne (eq_zero_of_decode_of_opField_zero hop hd)
  case idleEdge =>
    intro s c later
    calc step (s.withInputs (⟨false, true, 0x000000#24⟩ :: later))
        _ = .next (s.withInputs later) := step_inactive rfl s later
        _ = step (s.withInputs (⟨false, false, c⟩ :: later)) := (step_inactive rfl s later).symm

/-- Settles O2: START writes the run's registers where the phase table allows it, and in REC the table refuses it with
its own word. -/
theorem startBeginsRun : Obligations.StartBeginsRun := by
  refine ⟨fun a s herr hphase => exec_start_ok a herr hphase, ?recording, encode_start, ?reserved⟩
  case recording =>
    intro a s herr hrec
    have hphase : legal (.start a) s.phase = false := by rw [hrec]; rfl
    rw [exec_out_of_phase (.start a) s herr rfl hphase, encode_start, raise]
  case reserved =>
    intro w s herr _ hrsv
    exact acceptWord_of_rsvField_ne_zero herr hrsv

end Sys2Proof.Machine
end

section
/-! SUPPORT. The words of form L8 and of the commands without an operand, legal and illegal (30_encoding.md R49;
60_exceptions.md R84), and BEGIN and END by them (41_record.md R64, R65, R68). -/

namespace Sys2Proof.Machine

/-- R84 (d): a command of form L8 or B8 has 0 in its high operand byte. -/
theorem argHigh_eq_zero_of_decode {termEn : Bool} {w : CmdWord} {i : Instr}
    (hop : opField w = 0x2#4 ∨ opField w = 0x3#4) (hd : decode termEn w = .ok i) : argHigh w = 0#8 := by
  obtain ⟨-, hdecode⟩ := word_of_decode hd
  by_contra hne
  rcases hop with hop | hop <;> simp [decodeOp, hop, hne] at hdecode

/-- R84 (c): END and TERM have 0 in the operand. -/
theorem argField_eq_zero_of_decode {termEn : Bool} {w : CmdWord} {i : Instr}
    (hop : opField w = 0x4#4 ∨ opField w = 0x5#4) (hd : decode termEn w = .ok i) : argField w = 0#16 := by
  obtain ⟨-, hdecode⟩ := word_of_decode hd
  by_contra hne
  rcases hop with hop | hop <;> simp [decodeOp, hop, hne] at hdecode

/-- A legal word is its opcode and its operand, with nothing in RSV. -/
theorem eq_packWord_of_decode {termEn : Bool} {w : CmdWord} {i : Instr} {op : BitVec 4} {arg : Half}
    (hop : opField w = op) (harg : argField w = arg) (hd : decode termEn w = .ok i) : w = packWord op arg := by
  rw [← hop, ← harg, packWord_fields w (word_of_decode hd).1]

/-- The operand of form L8 or B8 stands in the low 8 bits, which are 0 in the opcode's word. -/
theorem packWord_byte_eq_or (op : BitVec 4) (b : Byte) :
    packWord op (0#8 ++ b) = packWord op 0#16 ||| b.setWidth 24 := by
  have hext : (0#8 ++ b : Half) = b.setWidth 16 := (BitVec.setWidth_eq_append (by decide)).symm
  rw [packWord_eq_or, hext, BitVec.setWidth_setWidth (by decide)]

theorem encode_beginRec (n : Byte) : encode (.beginRec n) = 0x200000#24 ||| n.setWidth 24 :=
  packWord_byte_eq_or 0x2#4 n

theorem legal_beginRec_iff (n : Byte) (p : Phase) : legal (.beginRec n) p = true ↔ p = .idle := by
  cases p <;> simp [legal]

theorem legal_endRec_iff (p : Phase) : legal .endRec p = true ↔ p = .recording := by
  cases p <;> simp [legal]

theorem headerSum_eq_ofNat (n : Byte) (a : Half) :
    headerSum n a = BitVec.ofNat 16 (n.toNat + a.toNat / 256 + a.toNat % 256) := by
  rw [← toNat_headerSum, BitVec.ofNat_toNat, BitVec.setWidth_eq]

theorem add16_eq_ofNat (a b : Half) : add16 a b = BitVec.ofNat 16 (a.toNat + b.toNat) := by
  simp [add16_eq_add, BitVec.ofNat_add]

theorem exec_beginRec_ok {n : Byte} {s : State} (h : s.err = .none) (hp : s.phase = .idle) (hn : n.toNat ≤ maxLen) :
    exec (.beginRec n) s = .next (openRecord n s) :=
  exec_perform_ok (.beginRec n) s _ h rfl ((legal_beginRec_iff n s.phase).2 hp) (if_pos (decide_eq_true hn))

theorem exec_endRec_ok {s : State} (h : s.err = .none) (hp : s.phase = .recording) (hc : s.cnt.toNat = s.len.toNat) :
    exec .endRec s = .next (advance (latchResult s.len s.addr s.csum s)) :=
  exec_perform_ok .endRec s _ h rfl ((legal_endRec_iff s.phase).2 hp) (if_pos (decide_eq_true hc))

/-- Settles O8: the sum of three bytes does not wrap, and two of them are at most 0xFF. -/
theorem headerSumFormula : Obligations.HeaderSumFormula := by
  intro n a
  refine ⟨headerSum_eq_ofNat n a, fun hn => ?_⟩
  have hsum := toNat_headerSum_le n a
  omega

/-- Settles O3: BEGIN's own rule tests the length, the phase table allows it in IDLE alone, and its word leaves
`w[19:8]` 0. -/
theorem beginOpensRecord : Obligations.BeginOpensRecord := by
  refine ⟨?opens, ?tooLong, ?outOfPhase, encode_beginRec, ?illegal⟩
  case opens =>
    intro n s herr hidle hn
    rw [exec_beginRec_ok herr hidle hn, openRecord, headerSum_eq_ofNat]
  case tooLong =>
    intro n s herr hidle hn
    have hlen : lengthLegal n = false := decide_eq_false (Nat.not_le.2 hn)
    have hp : performOf (.beginRec n) s = .error .len := by simp [performOf, hlen]
    rw [exec_perform_error _ s _ herr rfl ((legal_beginRec_iff n s.phase).2 hidle) hp, encode_beginRec, raise]
  case outOfPhase =>
    intro n s herr hphase
    have hl : legal (.beginRec n) s.phase = false := Bool.eq_false_iff.2 (mt (legal_beginRec_iff n s.phase).1 hphase)
    rw [exec_out_of_phase _ s herr rfl hl, encode_beginRec, raise]
  case illegal =>
    intro w s herr hop hbits
    rcases hbits with hhigh | hrsv
    · exact acceptWord_of_decode_ne_ok herr fun _ hd => hhigh (argHigh_eq_zero_of_decode (.inl hop) hd)
    · exact acceptWord_of_rsvField_ne_zero herr hrsv

/-- Settles O6: END's own rule tests CNT against LEN, the phase table allows it in REC alone, and a legal word with
its opcode has neither RSV nor operand bits. -/
theorem endClosesRecord : Obligations.EndClosesRecord := by
  refine ⟨?closes, ?incomplete, ?outOfPhase, rfl, ?illegal⟩
  case closes =>
    intro s herr hrec hc
    rw [exec_endRec_ok herr hrec hc]
    simp [advance, latchResult, add16_eq_ofNat]
  case incomplete =>
    intro s herr hrec hc
    have hcomplete : complete s = false := decide_eq_false hc
    have hp : performOf .endRec s = .error .und := by simp [performOf, hcomplete]
    exact exec_perform_error _ s _ herr rfl ((legal_endRec_iff s.phase).2 hrec) hp
  case outOfPhase =>
    intro s herr hphase
    have hl : legal .endRec s.phase = false := Bool.eq_false_iff.2 (mt (legal_endRec_iff s.phase).1 hphase)
    exact exec_out_of_phase _ s herr rfl hl
  case illegal =>
    intro w s herr hop hbits
    refine acceptWord_of_decode_ne_ok herr fun _ hd => hbits ?_
    rw [eq_packWord_of_decode hop (argField_eq_zero_of_decode (.inl hop) hd) hd]
    rfl

end Sys2Proof.Machine
end

section
/-! SUPPORT. The registers after one legal record in numbers (41_record.md R69, R70, R74). -/

namespace Sys2Proof.Machine

theorem zext16_chunkLength {bs : List Byte} (h : bs.length ≤ maxLen) :
    zext16 (chunkLength bs) = BitVec.ofNat 16 bs.length := by
  rw [zext16_eq_ofNat, toNat_chunkLength h]

theorem afterRecord_addr_eq_add {bs : List Byte} (h : bs.length ≤ maxLen) (s : State) :
    (afterRecord bs s).addr = s.addr + BitVec.ofNat 16 bs.length := by
  rw [afterRecord_addr, add16_eq_add, zext16_chunkLength h]

theorem afterRecord_total_eq_add {bs : List Byte} (h : bs.length ≤ maxLen) (s : State) :
    (afterRecord bs s).total = s.total + BitVec.ofNat 16 bs.length := by
  rw [afterRecord_total, add16_eq_add, zext16_chunkLength h]

/-- The checksum of a legal record: the header sum and the payload bytes (41_record.md R69). -/
theorem sumBytes_headerSum {bs : List Byte} (h : bs.length ≤ maxLen) (a : Half) :
    sumBytes (headerSum (chunkLength bs) a) bs =
      BitVec.ofNat 16 (bs.length + a.toNat / 256 + a.toNat % 256 + byteSum bs) := by
  rw [sumBytes_eq_add, headerSum_eq_ofNat, toNat_chunkLength h, byteSum, ← BitVec.ofNat_add]

/-- The run of a legal record ends in `afterRecord`, the host's later edges included. -/
theorem run_recordOf {is : List Instr} {s : State} (his : LegalPayload is) (h : s.err = .none)
    (hidle : s.phase = .idle) :
    run (recordOf is).length (s.feed (recordOf is)) = .next (afterRecord (delivered is) s) :=
  (consumes_record his h hidle).run_feed

/-- Settles O35: the three stages of `afterRecord` written out, with the checksum as one number. -/
theorem recordChecksumLaw : Obligations.RecordChecksumLaw := by
  intro s is herr hidle his
  have hlen := zext16_chunkLength his.2
  have hcsum := sumBytes_headerSum his.2 s.addr
  rw [chunkLength] at hlen hcsum
  rw [run_recordOf his herr hidle]
  simp [afterRecord, advance, latchResult, addPayload, openRecord, chunkLength, add16_eq_add, hlen, hcsum, hidle]

/-- Settles O39: the record with no payload commands is BEGIN 0, END. -/
theorem zeroLengthRecord : Obligations.ZeroLengthRecord := by
  intro s herr hidle
  have hrun := recordChecksumLaw s [] herr hidle ⟨rfl, Nat.zero_le _⟩
  simpa [recordOf, recordBy, chunkLength, delivered_nil, byteSum] using hrun

theorem byteSum_le (bs : List Byte) : byteSum bs ≤ bs.length * 0xFF := by
  have hbyte : ∀ x ∈ bs.map BitVec.toNat, x ≤ 0xFF := by
    intro x hx
    obtain ⟨b, -, rfl⟩ := List.mem_map.1 hx
    exact Nat.le_of_lt_succ b.isLt
  simpa [byteSum] using List.sum_le_card_nsmul _ _ hbyte

/-- Settles O36: each of up to 24 bytes adds at most 0xFF, and the CSUM bound of the invariant is below 2^13. -/
theorem checksumNeverWraps : Obligations.ChecksumNeverWraps := by
  refine ⟨?record, ?reachable⟩
  case record =>
    intro n a bs hn hlen
    have ha := a.isLt
    have hsum := byteSum_le bs
    omega
  case reachable =>
    intro s hs
    obtain ⟨-, -, -, -, -, hcsum, -⟩ := reachableStatesAreBounded s hs
    apply BitVec.eq_of_toNat_eq
    rw [BitVec.extractLsb'_toNat, Nat.shiftRight_eq_div_pow, Nat.div_eq_of_lt (by omega)]
    rfl

end Sys2Proof.Machine
end

section
/-! SUPPORT. A record depends on its payload only by the bytes delivered, in any order (41_record.md R73); RECORD and RECORDP
deliver the same (30_encoding.md R57). -/

namespace Sys2Proof.Machine

theorem sumBytes_perm {bs ds : List Byte} (h : bs.Perm ds) (c : Half) : sumBytes c bs = sumBytes c ds := by
  rw [sumBytes_eq_add, sumBytes_eq_add, (h.map BitVec.toNat).sum_eq]

theorem afterRecord_perm {bs ds : List Byte} (h : bs.Perm ds) (s : State) : afterRecord bs s = afterRecord ds s := by
  simp only [afterRecord, addPayload, chunkLength, h.length_eq, sumBytes_perm h]

theorem delivered_dataEach (bs : List Byte) : delivered (dataEach bs) = bs := by
  induction bs with
  | nil => rfl
  | cons b bs ih => exact congrArg (b :: ·) ih

theorem delivered_dataPairs (bs : List Byte) : delivered (dataPairs bs) = bs := by
  induction bs using dataPairs.induct with
  | case1 => rfl
  | case2 b => rfl
  | case3 b0 b1 rest ih => exact congrArg (b0 :: b1 :: ·) ih

theorem all_isInner_dataEach (bs : List Byte) : (dataEach bs).all isInner = true := by
  induction bs with
  | nil => rfl
  | cons b bs ih => exact ih

theorem all_isInner_dataPairs (bs : List Byte) : (dataPairs bs).all isInner = true := by
  induction bs using dataPairs.induct with
  | case1 => rfl
  | case2 b => rfl
  | case3 b0 b1 rest ih => exact ih

theorem legalPayload_dataEach {bs : List Byte} (h : bs.length ≤ maxLen) : LegalPayload (dataEach bs) :=
  ⟨all_isInner_dataEach bs, (delivered_dataEach bs).symm ▸ h⟩

theorem legalPayload_dataPairs {bs : List Byte} (h : bs.length ≤ maxLen) : LegalPayload (dataPairs bs) :=
  ⟨all_isInner_dataPairs bs, (delivered_dataPairs bs).symm ▸ h⟩

/-- RECORD is the record of its DATA commands. -/
theorem recordCmds_eq_recordOf (bs : List Byte) : recordCmds bs = recordOf (dataEach bs) := by
  rw [recordCmds, recordOf, delivered_dataEach]

/-- RECORDP is the record of its DATA2 commands, with a last DATA for an odd count. -/
theorem recordpCmds_eq_recordOf (bs : List Byte) : recordpCmds bs = recordOf (dataPairs bs) := by
  rw [recordpCmds, recordOf, delivered_dataPairs]

/-- Settles O38: both records end in `afterRecord`, which permuted payloads share. -/
theorem splitAndOrderIndependence : Obligations.SplitAndOrderIndependence := by
  refine ⟨?permuted, ?packed⟩
  case permuted =>
    intro s is js herr hidle his hjs hperm
    refine ⟨_, run_recordOf his herr hidle, ?_⟩
    rw [afterRecord_perm hperm s]
    exact run_recordOf hjs herr hidle
  case packed =>
    intro s bs herr hidle hlen
    have heach := run_recordOf (legalPayload_dataEach hlen) herr hidle
    have hpairs := run_recordOf (legalPayload_dataPairs hlen) herr hidle
    rw [← recordCmds_eq_recordOf, delivered_dataEach] at heach
    rw [← recordpCmds_eq_recordOf, delivered_dataPairs] at hpairs
    exact ⟨_, heach, hpairs⟩

end Sys2Proof.Machine
end

section
/-! SUPPORT. A run of legal records, and where the cursor and the total stand after it (41_record.md R71, R72). -/

namespace Sys2Proof.Machine

/-- The registers after the legal records `rs`, one after another. -/
def afterRecords : List (List Instr) → State → State
  | [], s => s
  | is :: rs, s => afterRecords rs (afterRecord (delivered is) s)

theorem payloadCount_cons (is : List Instr) (rs : List (List Instr)) :
    payloadCount (is :: rs) = (delivered is).length + payloadCount rs := rfl

@[simp] theorem afterRecords_err (rs : List (List Instr)) (s : State) : (afterRecords rs s).err = s.err := by
  induction rs generalizing s with
  | nil => rfl
  | cons is rs ih => exact ih _

theorem afterRecords_phase {rs : List (List Instr)} {s : State} (h : s.phase = .idle) :
    (afterRecords rs s).phase = .idle := by
  induction rs generalizing s with
  | nil => exact h
  | cons is rs ih => exact ih rfl

/-- Records run one after another without an error, each from the IDLE state the one before leaves. -/
theorem consumes_records {rs : List (List Instr)} {s : State} (hrs : ∀ is ∈ rs, LegalPayload is)
    (h : s.err = .none) (hidle : s.phase = .idle) :
    Consumes ((rs.flatMap recordOf).map Edge.command) s (afterRecords rs s) := by
  induction rs generalizing s with
  | nil => exact .nil s
  | cons is rs ih =>
    obtain ⟨his, hrs⟩ := List.forall_mem_cons.1 hrs
    rw [List.flatMap_cons, List.map_append]
    exact (consumes_record his h hidle).append (ih hrs h rfl)

/-- A register that each legal record advances by its length, a run of records advances by the sum of the lengths. -/
theorem afterRecords_advances {f : State → Half}
    (hf : ∀ {bs : List Byte}, bs.length ≤ maxLen → ∀ s, f (afterRecord bs s) = f s + BitVec.ofNat 16 bs.length)
    {rs : List (List Instr)} (hrs : ∀ is ∈ rs, LegalPayload is) (s : State) :
    f (afterRecords rs s) = f s + BitVec.ofNat 16 (payloadCount rs) := by
  induction rs generalizing s with
  | nil => exact (BitVec.add_zero _).symm
  | cons is rs ih =>
    obtain ⟨his, hrs⟩ := List.forall_mem_cons.1 hrs
    rw [afterRecords, ih hrs, hf his.2, payloadCount_cons, BitVec.ofNat_add, BitVec.add_assoc]

theorem afterRecords_addr {rs : List (List Instr)} (hrs : ∀ is ∈ rs, LegalPayload is) (s : State) :
    (afterRecords rs s).addr = s.addr + BitVec.ofNat 16 (payloadCount rs) :=
  afterRecords_advances (f := State.addr) afterRecord_addr_eq_add hrs s

theorem afterRecords_total {rs : List (List Instr)} (hrs : ∀ is ∈ rs, LegalPayload is) (s : State) :
    (afterRecords rs s).total = s.total + BitVec.ofNat 16 (payloadCount rs) :=
  afterRecords_advances (f := State.total) afterRecord_total_eq_add hrs s

/-- The cursor and the total of a run whose total starts at 0, as START and reset leave it. -/
theorem afterRecords_of_total_zero {rs : List (List Instr)} {s : State} (hrs : ∀ is ∈ rs, LegalPayload is)
    (htotal : s.total = 0#16) :
    (afterRecords rs s).addr = BitVec.ofNat 16 (s.addr.toNat + payloadCount rs) ∧
      (afterRecords rs s).total = BitVec.ofNat 16 (payloadCount rs) := by
  refine ⟨?addr, ?total⟩
  case addr => simp [afterRecords_addr hrs, BitVec.ofNat_add]
  case total => simp [afterRecords_total hrs, htotal]

/-- Of the commands that raise no error only START and END write ADDR. -/
theorem addr_of_performOf_ok {i : Instr} {s t : State} (h : performOf i s = .ok t) (hne : t.addr ≠ s.addr) :
    (∃ a, i = .start a) ∨ (i = .endRec ∧ t.addr = add16 s.addr (zext16 s.len)) := by
  rcases performOf_ok h with ⟨-, rfl⟩ | ⟨a, rfl, -⟩ | ⟨n, -, -, rfl⟩ | ⟨b, -, -, rfl⟩ | ⟨b0, b1, -, -, rfl⟩ |
    ⟨rfl, -, rfl⟩ | ⟨-, rfl⟩
  · exact absurd rfl hne
  · exact .inl ⟨a, rfl⟩
  · exact absurd rfl hne
  · exact absurd rfl hne
  · exact absurd rfl hne
  · exact .inr ⟨rfl, rfl⟩
  · exact absurd rfl hne

/-- Settles O37: an error leaves ADDR; START and reset set the cursor and clear the total, and the records after them add
their lengths to both. -/
theorem cursorAndTotalLaw : Obligations.CursorAndTotalLaw := by
  refine ⟨?writers, ?afterStart, ?afterReset⟩
  case writers =>
    intro i s t hexec hne
    rcases exec_next_cases hexec with rfl | ⟨code, w, -, -, rfl⟩ | ⟨-, hp⟩
    · exact absurd rfl hne
    · exact absurd (raise_addr s code w) hne
    · simpa [add16_eq_ofNat] using addr_of_performOf_ok hp hne
  case afterStart =>
    intro rs s a hrs herr hphase
    have hrun : Consumes ((Instr.start a :: rs.flatMap recordOf).map Edge.command) s
        (afterRecords rs (startRun a s)) :=
      (consumes_start a herr hphase).cons (consumes_records hrs herr rfl)
    obtain ⟨haddr, htotal⟩ := afterRecords_of_total_zero hrs (startRun_total s a)
    exact ⟨_, hrun.run_feed, haddr, htotal, (afterRecords_err rs _).trans herr, afterRecords_phase rfl, rfl⟩
  case afterReset =>
    intro rs cfg ins hrs
    have hrun := consumes_records (s := State.resetOf cfg ins) hrs rfl rfl
    obtain ⟨haddr, htotal⟩ := afterRecords_of_total_zero (s := State.resetOf cfg ins) hrs rfl
    exact ⟨_, hrun.run_feed, haddr, htotal, afterRecords_err rs _, afterRecords_phase rfl, rfl⟩

end Sys2Proof.Machine
end

section
/-! SUPPORT. TERM from an error-free IDLE state of an instance with TERM_EN = 1, and its word where it is illegal
(42_terminator.md R79; 60_exceptions.md R84, R85). -/

namespace Sys2Proof.Machine

/-- The registers after TERM: the terminator record is latched, and the sequencer is in DONE. -/
def afterTerm (s : State) : State :=
  enterDone (headerSum 0#8 s.total) (latchResult 0#8 s.total (headerSum 0#8 s.total) s)

theorem legal_term_iff (p : Phase) : legal .term p = true ↔ p = .idle := by
  cases p <;> simp [legal]

theorem exec_term_ok {s : State} (h : s.err = .none) (hterm : s.cfg.termEn = true) (hp : s.phase = .idle) :
    exec .term s = .next (afterTerm s) :=
  exec_perform_ok .term s _ h hterm ((legal_term_iff s.phase).2 hp) rfl

/-- The terminator's checksum is the sum of the two bytes of the total. -/
theorem headerSum_zero_eq_ofNat (a : Half) :
    headerSum 0#8 a = BitVec.ofNat 16 (a.toNat / 256 + a.toNat % 256) := by
  simp [headerSum_eq_ofNat]

/-- R84 (e): without TERM_EN the word of TERM stands for no command. -/
theorem decode_encode_term_disabled : decode false (encode .term) = .error .termDisabled := rfl

/-- A legal word with the opcode of END or TERM has no other bit set. -/
theorem low20_eq_zero_of_decode {termEn : Bool} {w : CmdWord} {i : Instr}
    (hop : opField w = 0x4#4 ∨ opField w = 0x5#4) (hd : decode termEn w = .ok i) : w.extractLsb' 0 20 = 0#20 := by
  have harg : argField w = 0#16 := argField_eq_zero_of_decode hop hd
  rcases hop with hop | hop <;> rw [eq_packWord_of_decode hop harg hd] <;> rfl

/-- Settles O7: TERM's own rule has no operand error, the phase table allows it in IDLE alone, and its opcode leaves one
legal word, which needs TERM_EN = 1. -/
theorem termProducesTerminator : Obligations.TermProducesTerminator := by
  refine ⟨?produces, ?outOfPhase, ?disabled, rfl, ?illegal⟩
  case produces =>
    intro s herr hterm hidle
    rw [exec_term_ok herr hterm hidle, afterTerm, headerSum_zero_eq_ofNat, enterDone, latchResult]
  case outOfPhase =>
    intro s herr hterm hphase
    have hl : legal .term s.phase = false := Bool.eq_false_iff.2 (mt (legal_term_iff s.phase).1 hphase)
    exact exec_out_of_phase .term s herr hterm hl
  case disabled =>
    intro s herr hterm
    refine acceptWord_of_decode_ne_ok (w := encode .term) herr fun i hd => ?_
    rw [hterm, decode_encode_term_disabled] at hd
    cases hd
  case illegal =>
    intro w s herr hop hbits
    exact acceptWord_of_decode_ne_ok herr fun _ hd => hbits (low20_eq_zero_of_decode (.inr hop) hd)

end Sys2Proof.Machine
end

section
/-! SUPPORT. The terminator after a run of legal records (42_terminator.md R81). -/

namespace Sys2Proof.Machine

section
variable (s : State)

@[simp] theorem afterTerm_outLen : (afterTerm s).outLen = 0#8 := rfl
@[simp] theorem afterTerm_outAddr : (afterTerm s).outAddr = s.total := rfl
@[simp] theorem afterTerm_outCsum : (afterTerm s).outCsum = headerSum 0#8 s.total := rfl
@[simp] theorem afterTerm_outValid : (afterTerm s).outValid = true := rfl
@[simp] theorem afterTerm_phase : (afterTerm s).phase = .done := rfl
@[simp] theorem afterTerm_err : (afterTerm s).err = s.err := rfl

end

theorem consumes_term {s : State} (h : s.err = .none) (hterm : s.cfg.termEn = true) (hp : s.phase = .idle) :
    Consumes [Edge.command .term] s (afterTerm s) :=
  consumes_command h hterm ((legal_term_iff s.phase).2 hp) rfl

@[simp] theorem afterRecords_cfg (rs : List (List Instr)) (s : State) : (afterRecords rs s).cfg = s.cfg := by
  induction rs generalizing s with
  | nil => rfl
  | cons is rs ih => exact ih _

/-- The checksum of a terminator whose total is a count taken modulo 65536. -/
theorem headerSum_zero_ofNat (n : Nat) :
    headerSum 0#8 (BitVec.ofNat 16 n) = BitVec.ofNat 16 (n % 65536 / 256 + n % 256) := by
  have hlow : n % 65536 % 256 = n % 256 := Nat.mod_mod_of_dvd n (by decide)
  rw [headerSum_zero_eq_ofNat, BitVec.toNat_ofNat, hlow]

/-- `t` shows the terminator record of a run of `n` payload bytes, and no error (42_terminator.md R79, R81). -/
abbrev ShowsTerminator (n : Nat) (t : State) : Prop :=
  t.outLen = 0#8 ∧ t.outAddr = BitVec.ofNat 16 n ∧ t.outCsum = BitVec.ofNat 16 (n % 65536 / 256 + n % 256) ∧
    t.outValid = true ∧ t.phase = .done ∧ t.err = .none

theorem afterTerm_showsTerminator {s : State} {n : Nat} (h : s.err = .none) (htotal : s.total = BitVec.ofNat 16 n) :
    ShowsTerminator n (afterTerm s) := by
  simp [ShowsTerminator, h, htotal, headerSum_zero_ofNat]

/-- Commands that lead to an error-free IDLE state with total 0, then legal records, then TERM: the terminator shows the
count of the records' bytes. -/
theorem run_records_term {before : List Instr} {s u : State} {rs : List (List Instr)}
    (hbefore : Consumes (before.map Edge.command) s u) (herr : u.err = .none) (hidle : u.phase = .idle)
    (htotal : u.total = 0#16) (hterm : u.cfg.termEn = true) (hrs : ∀ is ∈ rs, LegalPayload is) :
    ∃ t, run (before ++ rs.flatMap recordOf ++ [Instr.term]).length
        (s.feed (before ++ rs.flatMap recordOf ++ [Instr.term])) = .next t ∧ ShowsTerminator (payloadCount rs) t := by
  have hrecords : Consumes ((rs.flatMap recordOf).map Edge.command) u (afterRecords rs u) :=
    consumes_records hrs herr hidle
  have hclean : (afterRecords rs u).err = .none := (afterRecords_err rs u).trans herr
  have hlast : Consumes [Edge.command .term] (afterRecords rs u) (afterTerm (afterRecords rs u)) :=
    consumes_term hclean ((afterRecords_cfg rs u).symm ▸ hterm) (afterRecords_phase hidle)
  have hrun : Consumes ((before ++ rs.flatMap recordOf ++ [Instr.term]).map Edge.command) s
      (afterTerm (afterRecords rs u)) := by
    simpa using (hbefore.append hrecords).append hlast
  obtain ⟨-, hcount⟩ := afterRecords_of_total_zero hrs htotal
  exact ⟨_, hrun.run_feed, afterTerm_showsTerminator hclean hcount⟩

/-- Settles O41: START and reset both leave total 0 in IDLE and keep TERM_EN, and the records and TERM follow. -/
theorem terminatorCarriesRunTotal : Obligations.TerminatorCarriesRunTotal := by
  intro rs hrs
  refine ⟨?afterStart, ?afterReset⟩
  case afterStart =>
    intro s a herr hphase hterm
    exact run_records_term (before := [.start a]) (consumes_start a herr hphase) herr rfl rfl hterm hrs
  case afterReset =>
    intro cfg ins hterm
    exact run_records_term (before := []) (.nil (State.resetOf cfg ins)) rfl rfl rfl hterm hrs

end Sys2Proof.Machine
end

section
/-! SUPPORT. Decoding as an inversion: a decoded command is the command of its word, and a word that is not decoded falls under a
clause of 60_exceptions.md R84 (30_encoding.md R54). -/

namespace Sys2Proof.Machine

/-- What the decoder reads by opcode packs to the word's own fields, and TERM is read only where TERM_EN = 1. -/
theorem encode_of_decodeOp {termEn : Bool} {w : CmdWord} {i : Instr} (h : decodeOp termEn w = .ok i) :
    encode i = packWord (opField w) (argField w) ∧ i.wellFormed termEn = true := by
  have packed {op : BitVec 4} {arg : Half} (hop : (opField w).toNat = op.toNat) (harg : argField w = arg) :
      packWord op arg = packWord (opField w) (argField w) := by
    rw [BitVec.eq_of_toNat_eq hop, harg]
  have lowByte_only (hhigh : argHigh w = 0#8) : argField w = 0#8 ++ argLow w := by
    rw [← argHigh_append_argLow, hhigh]
  unfold decodeOp at h
  split at h
  case h_1 hop | h_5 hop =>
    split at h <;> cases h
    exact ⟨packed hop ‹_›, rfl⟩
  case h_2 hop =>
    cases h
    exact ⟨packed hop rfl, rfl⟩
  case h_3 hop | h_4 hop =>
    split at h <;> cases h
    exact ⟨packed hop (lowByte_only ‹_›), rfl⟩
  case h_6 hop =>
    split at h
    · split at h <;> cases h
      exact ⟨packed hop ‹_›, ‹_›⟩
    · cases h
  case h_7 hop =>
    cases h
    exact ⟨packed hop (argHigh_append_argLow w).symm, rfl⟩
  case h_8 => cases h

theorem encode_of_decode {termEn : Bool} {w : CmdWord} {i : Instr} (h : decode termEn w = .ok i) : encode i = w := by
  obtain ⟨hrsv, hop⟩ := word_of_decode h
  rw [(encode_of_decodeOp hop).1, packWord_fields w hrsv]

theorem wellFormed_of_decode {termEn : Bool} {w : CmdWord} {i : Instr} (h : decode termEn w = .ok i) :
    i.wellFormed termEn = true :=
  (encode_of_decodeOp (word_of_decode h).2).2

/-- R84 (b): no command has an opcode above 6. -/
theorem decodeOp_of_seven_le {termEn : Bool} {w : CmdWord} (h : 7 ≤ (opField w).toNat) :
    decodeOp termEn w = .error .undefinedOpcode := by
  unfold decodeOp
  split
  case h_8 => rfl
  all_goals omega

/-- R84 (b) to (e) are the only reasons for which the decoder gives up on an opcode and its operand. -/
theorem illegalByClauses_of_decodeOp_error {termEn : Bool} {w : CmdWord} {r : Illegal}
    (h : decodeOp termEn w = .error r) : IllegalByClauses termEn w := by
  have opcode {op : BitVec 4} (hop : (opField w).toNat = op.toNat) : opField w = op := BitVec.eq_of_toNat_eq hop
  unfold decodeOp at h
  split at h
  case h_1 hop =>
    split at h <;> cases h
    exact .inr (.inr (.inl ⟨.inl (opcode hop), ‹_›⟩))
  case h_2 | h_7 => cases h
  case h_3 hop =>
    split at h <;> cases h
    exact .inr (.inr (.inr (.inl ⟨.inl (opcode hop), ‹_›⟩)))
  case h_4 hop =>
    split at h <;> cases h
    exact .inr (.inr (.inr (.inl ⟨.inr (opcode hop), ‹_›⟩)))
  case h_5 hop =>
    split at h <;> cases h
    exact .inr (.inr (.inl ⟨.inr (.inl (opcode hop)), ‹_›⟩))
  case h_6 hop =>
    split at h
    · split at h <;> cases h
      exact .inr (.inr (.inr (.inr ⟨opcode hop, Bool.eq_false_iff.2 ‹_›⟩)))
    · exact .inr (.inr (.inl ⟨.inr (.inr (opcode hop)), ‹_›⟩))
  case h_8 h0 h1 h2 h3 h4 h5 h6 =>
    simp only [imp_false] at h0 h1 h2 h3 h4 h5 h6
    have hseven : 7 ≤ (opField w).toNat := by omega
    exact .inr (.inl ⟨hseven, Nat.le_of_lt_succ (opField w).isLt⟩)

theorem illegalByClauses_of_decode_error {termEn : Bool} {w : CmdWord} {r : Illegal}
    (h : decode termEn w = .error r) : IllegalByClauses termEn w := by
  unfold decode at h
  split at h
  · exact illegalByClauses_of_decodeOp_error h
  · exact .inl ‹_›

/-- Each clause of R84 shuts the decoder's way to a command. -/
theorem not_illegalByClauses_of_decode {termEn : Bool} {w : CmdWord} {i : Instr} (h : decode termEn w = .ok i) :
    ¬ IllegalByClauses termEn w := by
  obtain ⟨hrsv, hdecode⟩ := word_of_decode h
  rintro (hbits | ⟨hseven, -⟩ | ⟨hop | hop | hop, harg⟩ | ⟨hop, hhigh⟩ | ⟨hop, hterm⟩)
  · exact hbits hrsv
  · cases hdecode.symm.trans (decodeOp_of_seven_le hseven)
  · rw [eq_zero_of_decode_of_opField_zero hop h] at harg
    exact harg rfl
  · exact harg (argField_eq_zero_of_decode (.inl hop) h)
  · exact harg (argField_eq_zero_of_decode (.inr hop) h)
  · exact hhigh (argHigh_eq_zero_of_decode hop h)
  · have hw : w = encode .term := eq_packWord_of_decode hop (argField_eq_zero_of_decode (.inr hop) h) h
    rw [hw, hterm] at h
    cases h.symm.trans decode_encode_term_disabled

/-- Settles O13: a decoded word is under no clause and an undecoded one is under some clause, and the block looks at
nothing but the decoding before it raises E_ILL or runs the command. -/
theorem illegalWordRaisesEIll : Obligations.IllegalWordRaisesEIll := by
  intro w s herr
  rcases acceptWord_cases w s with ⟨hne, -⟩ | ⟨r, -, hd, he⟩ | ⟨i, -, hd, he⟩
  · exact absurd herr hne
  · exact ⟨fun _ => ⟨⟨r, hd⟩, he⟩, fun hlegal => absurd (illegalByClauses_of_decode_error hd) hlegal⟩
  · exact ⟨fun hill => absurd hill (not_illegalByClauses_of_decode hd), fun _ => ⟨i, hd, he⟩⟩

end Sys2Proof.Machine
end

section
/-! SUPPORT. The errors: the fault action on the ports, the phases of E_SEQ, and for each level of 60_exceptions.md R89
what an accepted word does there, from which the priority and the precision of the errors follow. -/

namespace Sys2Proof.Machine

/-- Settles O15: ERR other than NONE is the halted bit that drives `err_o`, and its bits are STATUS[6:4]. -/
theorem faultActionWritesErrAndFcmd : Obligations.FaultActionWritesErrAndFcmd := by
  intro code w s
  refine ⟨rfl, fun hcode => ⟨?errO, status_err (raise code w s), rfl⟩⟩
  case errO =>
    have hbit : (outputs (raise code w s)).errO = BitVec.ofBool (halted (raise code w s)) := status_halted _
    rw [hbit, ofBool_halted, raise_err, if_neg hcode]

/-- The list of R85 and the table of 30_encoding.md R59 mark the same phases. -/
theorem outOfPhase_eq_not_legal (i : Instr) (p : Phase) : outOfPhase i p = !legal i p := by
  cases i <;> cases p <;> rfl

/-- A command's own writes leave ERR. -/
theorem err_of_performOf_ok {i : Instr} {s t : State} (h : performOf i s = .ok t) : t.err = s.err := by
  rcases performOf_ok h with ⟨-, rfl⟩ | ⟨a, -, rfl⟩ | ⟨n, -, -, rfl⟩ | ⟨b, -, -, rfl⟩ | ⟨b0, b1, -, -, rfl⟩ |
    ⟨-, -, rfl⟩ | ⟨-, rfl⟩ <;> rfl

/-- E_SEQ is no operand error. -/
theorem performOf_error_ne_seq {i : Instr} {s : State} {code : ErrCode} (h : performOf i s = .error code) :
    code ≠ .seq := by
  rcases performOf_error h with ⟨rfl, -⟩ | ⟨rfl, -⟩ | ⟨rfl, -⟩ <;> nofun

/-- Settles O17: out of phase the frame raises E_SEQ; in phase the command's own rule raises another error or leaves ERR. -/
theorem sequenceErrorExactlyOutOfPhase : Obligations.SequenceErrorExactlyOutOfPhase := by
  intro i s herr hw
  cases hl : legal i s.phase with
  | false =>
    rw [if_pos (by rw [outOfPhase_eq_not_legal, hl]; rfl)]
    exact exec_out_of_phase i s herr hw hl
  | true =>
    rw [if_neg (by rw [outOfPhase_eq_not_legal, hl]; nofun)]
    cases hp : performOf i s with
    | error code => exact ⟨_, exec_perform_error i s code herr hw hl hp, performOf_error_ne_seq hp⟩
    | ok t =>
      refine ⟨t, exec_perform_ok i s t herr hw hl hp, ?_⟩
      rw [err_of_performOf_ok hp, herr]
      nofun

/-- R89's first level: a halted block ignores every word (60_exceptions.md R88). -/
theorem acceptWord_halted (w : CmdWord) {s : State} (h : s.err ≠ .none) : acceptWord w s = .next s := by
  rcases acceptWord_cases w s with ⟨-, he⟩ | ⟨-, herr, -⟩ | ⟨-, herr, -⟩
  · exact he
  · exact absurd herr h
  · exact absurd herr h

/-- R89's second level: a word that is not decoded. -/
theorem acceptWord_decode_error {w : CmdWord} {s : State} {r : Illegal} (h : s.err = .none)
    (hd : decode s.cfg.termEn w = .error r) : acceptWord w s = .next (raise .ill w s) :=
  acceptWord_of_decode_ne_ok h fun _ hok => nomatch hd.symm.trans hok

/-- Below R89's second level a word is its command's word, so every later error records the word itself. -/
theorem acceptWord_decode_ok {w : CmdWord} {s : State} {i : Instr} (h : s.err = .none)
    (hd : decode s.cfg.termEn w = .ok i) : acceptWord w s = exec i s := by
  rw [← encode_of_decode hd, acceptWord_encode h (wellFormed_of_decode hd)]

section
variable {w : CmdWord} {s : State} {i : Instr} (h : s.err = .none) (hd : decode s.cfg.termEn w = .ok i)
include h hd

/-- R89's third level: a decoded command out of phase. -/
theorem acceptWord_out_of_phase (hl : legal i s.phase = false) : acceptWord w s = .next (raise .seq w s) := by
  rw [acceptWord_decode_ok h hd, exec_out_of_phase i s h (wellFormed_of_decode hd) hl, encode_of_decode hd]

/-- R89's last level: a command in phase whose own rule raises its operand error. -/
theorem acceptWord_perform_error {code : ErrCode} (hl : legal i s.phase = true) (hp : performOf i s = .error code) :
    acceptWord w s = .next (raise code w s) := by
  rw [acceptWord_decode_ok h hd, exec_perform_error i s code h (wellFormed_of_decode hd) hl hp, encode_of_decode hd]

/-- Past every level of R89 the command makes its own writes. -/
theorem acceptWord_perform_ok {t : State} (hl : legal i s.phase = true) (hp : performOf i s = .ok t) :
    acceptWord w s = .next t := by
  rw [acceptWord_decode_ok h hd, exec_perform_ok i s t h (wellFormed_of_decode hd) hl hp]

end

/-- A word that changes ERR takes the fault action with that word, at whichever level it fails. -/
theorem eq_raise_of_acceptWord {w : CmdWord} {s t : State} (h : s.err = .none) (ht : acceptWord w s = .next t)
    (hne : t.err ≠ s.err) : t = raise t.err w s := by
  have raised {code : ErrCode} (he : acceptWord w s = .next (raise code w s)) : t = raise t.err w s := by
    cases ht.symm.trans he
    rfl
  cases hd : decode s.cfg.termEn w with
  | error r => exact raised (acceptWord_decode_error h hd)
  | ok i =>
    cases hl : legal i s.phase with
    | false => exact raised (acceptWord_out_of_phase h hd hl)
    | true =>
      cases hp : performOf i s with
      | error code => exact raised (acceptWord_perform_error h hd hl hp)
      | ok u =>
        cases ht.symm.trans (acceptWord_perform_ok h hd hl hp)
        exact absurd (err_of_performOf_ok hp) hne

/-- Settles O16: a word changes ERR only from an error-free state and by the fault action, and the state it leaves is
halted. -/
theorem faultingWordIsPrecise : Obligations.FaultingWordIsPrecise := by
  intro w s t ht hne
  have herr : s.err = .none := by
    by_contra hhalted
    cases ht.symm.trans (acceptWord_halted w hhalted)
    exact hne rfl
  exact ⟨eq_raise_of_acceptWord herr ht hne, fun later => acceptWord_halted later (herr ▸ hne)⟩

/-- Settles O18: each clause selects its level, and the level fixes the next state; a command in phase can fail by its own
operand error alone. -/
theorem errorPriority : Obligations.ErrorPriority := by
  intro w s t ht
  have next {u : State} (he : acceptWord w s = .next u) : t = u := Host.Outcome.next.inj (ht.symm.trans he)
  refine ⟨fun hne => next (acceptWord_halted w hne), ?illegal, ?outOfPhase, ?operand⟩
  case illegal =>
    rintro herr ⟨r, hd⟩
    rw [next (acceptWord_decode_error herr hd), raise_err]
  case outOfPhase =>
    intro i herr hd hl
    rw [next (acceptWord_out_of_phase herr hd hl), raise_err]
  case operand =>
    intro i herr hd hl
    cases hp : performOf i s with
    | ok u =>
      rw [next (acceptWord_perform_ok herr hd hl hp)]
      exact .inl ((err_of_performOf_ok hp).trans herr)
    | error code =>
      rw [next (acceptWord_perform_error herr hd hl hp), raise_err]
      rcases performOf_error hp with ⟨rfl, n, rfl⟩ | ⟨rfl, ⟨b, rfl⟩ | ⟨b0, b1, rfl⟩⟩ | ⟨rfl, rfl⟩ <;> exact .inr rfl

end Sys2Proof.Machine
end

section
/-! SUPPORT. One edge by its pins (70_reset_and_hazards.md R97, R98, R102). -/

namespace Sys2Proof.Machine

/-- Settles O24: each combination of the pins selects its branch of the edge. -/
theorem risingEdgeByPins : Obligations.RisingEdgeByPins := by
  intro s e later hin
  rw [step_of_cons hin]
  exact ⟨fun hrst => onEdge_reset hrst _, fun hrst hvalid => onEdge_word hrst hvalid _,
    fun hrst hvalid => onEdge_idle hrst hvalid _⟩

/-- Settles O21: a reset edge is the reset, which reads nothing of the state but the parameters and the later edges. -/
theorem resetEdgeRestoresEveryRegister : Obligations.ResetEdgeRestoresEveryRegister := by
  intro s valid c later hin
  calc step s
      _ = onEdge ⟨true, valid, c⟩ (s.withInputs later) := step_of_cons hin
      _ = .next (applyReset (s.withInputs later)) := onEdge_reset rfl _

end Sys2Proof.Machine
end

section
/-! SUPPORT. An accepted word as an update of the registers, the same whatever the host drives next;
and, by it, the edges that may be left out of a run (70_reset_and_hazards.md R109). -/

namespace Sys2Proof.Machine

/-- The registers after the word `w`: untouched while halted, else the fault action with `w`, else the writes of the
command whose word it is (60_exceptions.md R87 to R89). -/
inductive WordOutcome (w : CmdWord) (s : State) : State → Prop
  | halted (herr : s.err ≠ .none) : WordOutcome w s s
  | fault {code : ErrCode} (hcode : code ≠ .none) : WordOutcome w s (raise code w s)
  | performed {i : Instr} {u : State} (herr : s.err = .none) (hw : encode i = w) (hp : performOf i s = .ok u) :
      WordOutcome w s u

/-- No operand error is the code NONE. -/
theorem performOf_error_ne_none {i : Instr} {s : State} {code : ErrCode} (h : performOf i s = .error code) :
    code ≠ .none := by
  rcases performOf_error h with ⟨rfl, -⟩ | ⟨rfl, -⟩ | ⟨rfl, -⟩ <;> nofun

/-- Every word has one outcome, and the later edges stay as they are. -/
theorem acceptWord_outcome (w : CmdWord) (s : State) :
    ∃ u, WordOutcome w s u ∧ ∀ later, acceptWord w (s.withInputs later) = .next (u.withInputs later) := by
  by_cases herr : s.err = .none
  · cases hd : decode s.cfg.termEn w with
    | error r =>
      exact ⟨_, .fault (code := .ill) nofun, fun later => acceptWord_decode_error (s := s.withInputs later) herr hd⟩
    | ok i =>
      cases hl : legal i s.phase with
      | false =>
        exact ⟨_, .fault (code := .seq) nofun,
          fun later => acceptWord_out_of_phase (s := s.withInputs later) herr hd hl⟩
      | true =>
        cases hp : performOf i s with
        | error code =>
          refine ⟨_, .fault (performOf_error_ne_none hp),
            fun later => acceptWord_perform_error (s := s.withInputs later) (code := code) herr hd hl ?_⟩
          rw [performOf_withInputs, hp, Except.map]
        | ok u =>
          refine ⟨u, .performed herr (encode_of_decode hd) hp,
            fun later => acceptWord_perform_ok (s := s.withInputs later) herr hd hl ?_⟩
          rw [performOf_withInputs, hp, Except.map]
  · exact ⟨s, .halted herr, fun later => acceptWord_halted (s := s.withInputs later) w herr⟩

/-- The state after a word is that word's outcome. -/
theorem wordOutcome_of_acceptWord {w : CmdWord} {s t : State} (h : acceptWord w s = .next t) : WordOutcome w s t := by
  obtain ⟨u, hu, haccept⟩ := acceptWord_outcome w s
  have hs : acceptWord w s = .next (u.withInputs s.inputs) := haccept s.inputs
  cases h.symm.trans hs
  cases hu with
  | halted herr => exact .halted herr
  | fault hcode => exact .fault hcode
  | performed herr hw hp =>
    refine .performed herr hw ?_
    rw [← withInputs_self s, performOf_withInputs, hp, Except.map, withInputs_self]

/-- Any one edge is consumed: it makes one update of the registers, whatever comes after it. -/
theorem exists_consumes_edge (e : Edge) (s : State) : ∃ u, Consumes [e] s u := by
  cases hrst : e.rst with
  | true => exact ⟨applyReset s, .single fun _ => onEdge_reset hrst _⟩
  | false =>
    cases hvalid : e.cmdValid with
    | false => exact ⟨s, .single fun _ => onEdge_idle hrst hvalid _⟩
    | true =>
      obtain ⟨u, -, haccept⟩ := acceptWord_outcome e.cmd s
      exact ⟨u, .single fun later => (onEdge_word hrst hvalid _).trans (haccept later)⟩

/-- A list of edges and its active edges alone take the registers to the same values. -/
theorem exists_consumes_filter_isActive (es : List Edge) (s : State) :
    ∃ u, Consumes es s u ∧ Consumes (es.filter isActive) s u := by
  induction es generalizing s with
  | nil => exact ⟨s, .nil s, .nil s⟩
  | cons e es ih =>
    cases he : isActive e with
    | false =>
      obtain ⟨u, hall, hactive⟩ := ih s
      have hgap : Consumes [e] s s := .single fun _ => onEdge_inactive he _
      rw [List.filter_cons_of_neg (Bool.eq_false_iff.1 he)]
      exact ⟨u, .cons hgap hall, hactive⟩
    | true =>
      obtain ⟨v, hedge⟩ := exists_consumes_edge e s
      obtain ⟨u, hall, hactive⟩ := ih v
      rw [List.filter_cons_of_pos he]
      exact ⟨u, .cons hedge hall, .cons hedge hactive⟩

theorem Consumes.run_withInputs {es : List Edge} {s u : State} (h : Consumes es s u) :
    run es.length (s.withInputs es) = .next (u.withInputs []) := by
  have hrun := h []
  rwa [List.append_nil] at hrun

/-- Settles O34: both runs end in the registers that the list and its active edges have in common, with no edge left. -/
theorem idleEdgesDoNotMatter : Obligations.IdleEdgesDoNotMatter := by
  intro s es
  obtain ⟨u, hall, hactive⟩ := exists_consumes_filter_isActive es s
  rw [hall.run_withInputs, hactive.run_withInputs]

end Sys2Proof.Machine
end

section
/-! SUPPORT. What an edge without reset does to the record result: it keeps it, opens the next record or
run, or latches a new result (70_reset_and_hazards.md R106). -/

namespace Sys2Proof.Machine

/-- The record result of `t` is that of `s`; OUT_VALID is no part of it (10_state.md R24, R25). -/
abbrev SameResult (s t : State) : Prop := t.outLen = s.outLen ∧ t.outAddr = s.outAddr ∧ t.outCsum = s.outCsum

/-- The opcodes of START, BEGIN, END and TERM (30_encoding.md R49), the commands that write OUT_VALID. -/
abbrev resultOpcodes : List (BitVec 4) := [0x1#4, 0x2#4, 0x4#4, 0x5#4]

/-- The three things an edge without reset can do to the record result. -/
inductive ResultEffect (e : Edge) (s t : State) : Prop
  /-- An idle edge, a fault or a halted block, or a word with no opcode of START, BEGIN, END or TERM. -/
  | kept (hresult : SameResult s t) (hvalid : t.outValid = s.outValid)
      (hwhy : e.cmdValid = true → t.err = .none → opField e.cmd ∉ resultOpcodes)
  /-- START or BEGIN without a fault. -/
  | opened (hcmd : e.cmdValid = true) (hop : opField e.cmd = 0x1#4 ∨ opField e.cmd = 0x2#4) (herr : t.err = .none)
      (hresult : SameResult s t) (hvalid : t.outValid = false)
  /-- END or TERM without a fault. -/
  | latched (hcmd : e.cmdValid = true) (hword : e.cmd = encode .endRec ∨ e.cmd = encode .term) (herr : t.err = .none)
      (hvalid : t.outValid = true)

/-- The effect of a command by its own writes. -/
theorem resultEffect_of_performOf_ok {e : Edge} {i : Instr} {s t : State} (hcmd : e.cmdValid = true)
    (hword : encode i = e.cmd) (herr : s.err = .none) (hp : performOf i s = .ok t) : ResultEffect e s t := by
  have hok : t.err = .none := (err_of_performOf_ok hp).trans herr
  have hop : opField e.cmd = opField (encode i) := congrArg opField hword.symm
  rcases performOf_ok hp with ⟨rfl, rfl⟩ | ⟨a, rfl, rfl⟩ | ⟨n, rfl, -, rfl⟩ | ⟨b, rfl, -, rfl⟩ |
    ⟨b0, b1, rfl, -, rfl⟩ | ⟨rfl, -, rfl⟩ | ⟨rfl, rfl⟩ <;> rw [encode, opField_packWord] at hop
  · exact .kept ⟨rfl, rfl, rfl⟩ rfl (fun _ _ => by rw [hop]; decide)
  · exact .opened hcmd (.inl hop) hok ⟨rfl, rfl, rfl⟩ rfl
  · exact .opened hcmd (.inr hop) hok ⟨rfl, rfl, rfl⟩ rfl
  · exact .kept ⟨rfl, rfl, rfl⟩ rfl (fun _ _ => by rw [hop]; decide)
  · exact .kept ⟨rfl, rfl, rfl⟩ rfl (fun _ _ => by rw [hop]; decide)
  · exact .latched hcmd (.inl hword.symm) hok rfl
  · exact .latched hcmd (.inr hword.symm) hok rfl

/-- Every edge without reset has one of the three effects. -/
theorem resultEffect_of_onEdge {e : Edge} {s t : State} (hrst : e.rst = false) (h : onEdge e s = .next t) :
    ResultEffect e s t := by
  cases hcmd : e.cmdValid with
  | false =>
    cases h.symm.trans (onEdge_idle hrst hcmd s)
    exact .kept ⟨rfl, rfl, rfl⟩ rfl (fun hvalid => nomatch hcmd.symm.trans hvalid)
  | true =>
    cases wordOutcome_of_acceptWord ((onEdge_word hrst hcmd s).symm.trans h) with
    | halted herr => exact .kept ⟨rfl, rfl, rfl⟩ rfl (fun _ hok => absurd hok herr)
    | fault hcode => exact .kept ⟨rfl, rfl, rfl⟩ rfl (fun _ hok => absurd hok hcode)
    | performed herr hword hp => exact resultEffect_of_performOf_ok hcmd hword herr hp

/-- Settles O33: the clauses of R106 read off the three effects of an edge, whose opcodes exclude each other. -/
theorem recordResultWindow : Obligations.RecordResultWindow := by
  intro s t e later hin hrst hstep
  have hedge : onEdge e (s.withInputs later) = .next t := (step_of_cons hin).symm.trans hstep
  cases resultEffect_of_onEdge hrst hedge with
  | kept hresult hvalid hwhy =>
    refine ⟨fun _ => hresult, fun _ hs => hvalid.trans hs, ?closing, ?opening⟩
    case closing =>
      intro hcmd hword herr
      refine absurd ?_ (hwhy hcmd herr)
      rcases hword with hword | hword <;> rw [hword] <;> decide
    case opening =>
      intro hcmd hop herr
      refine absurd ?_ (hwhy hcmd herr)
      rcases hop with hop | hop <;> rw [show opField e.cmd = _ from hop] <;> decide
  | opened hcmd hop herr hresult hvalid =>
    refine ⟨fun _ => hresult, ?valid, ?closing, fun _ _ _ => hvalid⟩
    case valid =>
      rintro (hidle | ⟨hstart, hbegin⟩ | hfault)
      · nomatch hcmd.symm.trans hidle
      · exact absurd hop (not_or.2 ⟨hstart, hbegin⟩)
      · exact absurd herr hfault
    case closing => rintro - (hword | hword) <;> rw [hword] at hop <;> exact absurd hop (by decide)
  | latched hcmd hword herr hvalid =>
    refine ⟨?result, fun _ _ => hvalid, fun _ _ _ => hvalid, ?opening⟩
    case result =>
      rintro (hidle | ⟨hend, hterm⟩ | hfault)
      · nomatch hcmd.symm.trans hidle
      · exact absurd hword (not_or.2 ⟨hend, hterm⟩)
      · exact absurd herr hfault
    case opening =>
      intro _ hop
      rcases hword with hword | hword <;> rw [hword] at hop <;> exact absurd hop (by decide)

end Sys2Proof.Machine
end

section
/-! SUPPORT. Decode and encode are inverse to each other (30_encoding.md R49, R54), so a command's word on the pins runs that
command (70_reset_and_hazards.md R102). -/

namespace Sys2Proof.Machine

/-- Settles O10: the fields of a command's word are its opcode and its operand, and a word without RSV bits is decoded by them. -/
theorem decodeEncodeRoundTrip : Obligations.DecodeEncodeRoundTrip :=
  fun _ _ hw => decode_encode hw

/-- Settles O11: what is decoded packs to the word it was read from, and only an instance's commands are read. -/
theorem decodedWordIsItsEncoding : Obligations.DecodedWordIsItsEncoding :=
  fun _ _ _ hd => ⟨encode_of_decode hd, wellFormed_of_decode hd⟩

/-- Settles O12: each sample word is the encoding of its command, so the round trip reads it back. -/
theorem decodeReadsSampleWords : Obligations.DecodeReadsSampleWords :=
  ⟨decode_encode (i := .nop) rfl, decode_encode (i := .start 0x1234#16) rfl, decode_encode (i := .beginRec 24#8) rfl,
    decode_encode (i := .data 0xAA#8) rfl, decode_encode (i := .data2 0x80#8 0x81#8) rfl,
    decode_encode (i := .endRec) rfl, decode_encode (i := .term) rfl⟩

/-- A word that decodes runs its command, halted or not. -/
theorem acceptWord_of_decode {w : CmdWord} {s : State} {i : Instr} (hd : decode s.cfg.termEn w = .ok i) :
    acceptWord w s = exec i s := by
  by_cases herr : s.err = .none
  · exact acceptWord_decode_ok herr hd
  · rw [acceptWord_halted w herr, exec_halted i s herr]

/-- Settles O23: the edge takes the word, and the word runs its command. -/
theorem stepRunsDecodedCommand : Obligations.StepRunsDecodedCommand := by
  intro s w later i hin hd
  calc step s
      _ = onEdge ⟨false, true, w⟩ (s.withInputs later) := step_of_cons hin
      _ = acceptWord w (s.withInputs later) := onEdge_word rfl rfl _
      _ = exec i (s.withInputs later) := acceptWord_of_decode hd

/-- TERM is the one command whose presence depends on TERM_EN. -/
theorem wellFormed_iff (termEn : Bool) (i : Instr) : i.wellFormed termEn = true ↔ termEn = true ∨ i ≠ .term := by
  cases i <;> simp [Instr.wellFormed]

/-- An instance with TERM_EN = 1 has every command. -/
theorem wellFormed_true (i : Instr) : i.wellFormed true = true :=
  (wellFormed_iff true i).2 (.inl rfl)

theorem tableWord_toNat (w : CmdWord) : tableWord 24 w.toNat = w := by
  rw [tableWord, Nat.mod_eq_of_lt w.isLt, BitVec.ofNat_toNat, BitVec.setWidth_eq]

theorem needsTermEn_encode (i : Instr) : needsTermEn (encode i) = decide (i = .term) := by
  simp [needsTermEn, decode_encode (wellFormed_true i)]

/-- Settles O26: placing a command's word turns TERM_EN on just where the command needs it, so the word decodes to the
command at the next edge. -/
theorem placedWordRunsNext : Obligations.PlacedWordRunsNext := by
  intro i s
  have hword : s.withFetchWord 24 (encode i).toNat = enableFor (encode i) (placeWord (encode i) s) := by
    rw [State.withFetchWord, tableWord_toNat]
  have hw : i.wellFormed (s.cfg.termEn || needsTermEn (encode i)) = true := by
    rw [wellFormed_iff, needsTermEn_encode]
    by_cases hterm : i = .term <;> simp [hterm]
  rw [hword, ← needsTermEn_encode]
  exact stepRunsDecodedCommand (enableFor (encode i) (placeWord (encode i) s)) _ _ i rfl (decode_encode hw)

end Sys2Proof.Machine
end

section
/-! SUPPORT. The invariant of 10_state.md R30 at reset and over one step, as the statements have it. -/

namespace Sys2Proof.Machine

/-- Settles O30: each register update keeps the invariant, a payload byte by the room the perform step has checked for it. -/
theorem stepKeepsInvariant : Obligations.StepKeepsInvariant :=
  step_inv

/-- Settles O31: every bounded register is 0 after reset, and no record is open. -/
theorem resetHasInvariant : Obligations.ResetHasInvariant :=
  ⟨resetOf_inv Config.standard [], resetOf_inv⟩

end Sys2Proof.Machine
end

section
/-! SUPPORT. The halt and the reset that ends it (60_exceptions.md R88); an open record over one edge (section 3 there). -/

namespace Sys2Proof.Machine

theorem onEdge_halted {e : Edge} {s : State} (herr : s.err ≠ .none) (hrst : e.rst = false) : onEdge e s = .next s := by
  cases hvalid : e.cmdValid with
  | false => exact onEdge_idle hrst hvalid s
  | true => rw [onEdge_word hrst hvalid, acceptWord_halted e.cmd herr]

/-- Edges without reset only pass by a halted block, and past the host's list the edges are idle (log 1). -/
theorem run_halted {s : State} (herr : s.err ≠ .none) {k : Nat} {es : List Edge}
    (hrst : ∀ e ∈ es.take k, e.rst = false) : run k (s.withInputs es) = .next (s.withInputs (es.drop k)) := by
  induction k generalizing es with
  | zero => exact run_zero _
  | succ k ih =>
    cases es with
    | nil => rw [run_succ_of_step (step_of_nil rfl), ih (by simp), List.drop_nil, List.drop_nil]
    | cons e es =>
      obtain ⟨he, hes⟩ := List.forall_mem_cons.1 hrst
      have hstep : step (s.withInputs (e :: es)) = .next (s.withInputs es) :=
        (step_of_cons rfl).trans (onEdge_halted (s := s.withInputs es) herr he)
      rw [run_succ_of_step hstep, ih hes, List.drop_succ_cons]

/-- Settles O19: the frame of every command and word looks at ERR first, and only the reset branch of an edge comes
before it. -/
theorem haltLastsUntilReset : Obligations.HaltLastsUntilReset := by
  refine ⟨exec_halted, fun w _ herr => acceptWord_halted w herr, fun _ _ herr hrst => run_halted herr hrst, ?reset⟩
  case reset =>
    intro s e later hin hrst
    exact ⟨_, (step_of_cons hin).trans (onEdge_reset hrst _), rfl, rfl, rfl⟩

/-- In REC the phase table leaves BEGIN, START and TERM out, so of the commands in phase only END leaves REC. -/
theorem recording_of_performOf_ok {i : Instr} {s t : State} (hrec : s.phase = .recording)
    (hl : legal i s.phase = true) (hp : performOf i s = .ok t) :
    t.phase = .recording ∨
      (i = .endRec ∧ s.cnt.toNat = s.len.toNat ∧ t = advance (latchResult s.len s.addr s.csum s)) := by
  rw [hrec] at hl
  rcases performOf_ok hp with ⟨-, rfl⟩ | ⟨a, rfl, -⟩ | ⟨n, -, -, rfl⟩ | ⟨b, -, -, rfl⟩ | ⟨b0, b1, -, -, rfl⟩ |
    ⟨rfl, hc, rfl⟩ | ⟨rfl, -⟩
  · exact .inl hrec
  · cases hl
  · exact .inl rfl
  · exact .inl hrec
  · exact .inl hrec
  · exact .inr ⟨rfl, hc, rfl⟩
  · cases hl

/-- A word leaves an open record open, or it is END's and closes it. -/
theorem recording_of_acceptWord {w : CmdWord} {s t : State} (hrec : s.phase = .recording)
    (h : acceptWord w s = .next t) :
    t.phase = .recording ∨
      (w = encode .endRec ∧ s.cnt.toNat = s.len.toNat ∧ t = advance (latchResult s.len s.addr s.csum s)) := by
  rcases acceptWord_cases w s with ⟨-, he⟩ | ⟨-, -, -, he⟩ | ⟨i, -, hd, he⟩
  · cases h.symm.trans he
    exact .inl hrec
  · cases h.symm.trans he
    exact .inl hrec
  · rcases exec_next_cases (he.symm.trans h) with rfl | ⟨code, w', -, -, rfl⟩ | ⟨hl, hp⟩
    · exact .inl hrec
    · exact .inl hrec
    · refine (recording_of_performOf_ok hrec hl hp).imp_right ?_
      rintro ⟨rfl, hclose⟩
      exact ⟨(encode_of_decode hd).symm, hclose⟩

/-- Settles O20: an idle edge leaves the registers, and a word ends the record only as END's own rule. -/
theorem openRecordEndsOnlyByEndOrReset : Obligations.OpenRecordEndsOnlyByEndOrReset := by
  intro s t e later hin hrec hstep
  have hedge : onEdge e (s.withInputs later) = .next t := (step_of_cons hin).symm.trans hstep
  cases hrst : e.rst with
  | true => exact .inr (.inl rfl)
  | false =>
    cases hvalid : e.cmdValid with
    | false =>
      cases hedge.symm.trans (onEdge_idle hrst hvalid _)
      exact .inl hrec
    | true =>
      have hword : acceptWord e.cmd (s.withInputs later) = .next t := (onEdge_word hrst hvalid _).symm.trans hedge
      rcases recording_of_acceptWord (s := s.withInputs later) hrec hword with hopen | ⟨hcmd, hc, rfl⟩
      · exact .inl hopen
      · exact .inr (.inr ⟨rfl, hcmd, hc, rfl, rfl, rfl, rfl, rfl⟩)

end Sys2Proof.Machine
end

section
/-! SUPPORT. What no command and no edge writes (70_reset_and_hazards.md R100, R104), and the write matrix of the
registers (10_state.md R29). -/

namespace Sys2Proof.Machine

/-- The model's own two fields, the parameters and the host's coming edges, are those of `s`. -/
abbrev SameSetting (s t : State) : Prop := t.cfg = s.cfg ∧ t.inputs = s.inputs

theorem sameSetting_of_performOf_ok {i : Instr} {s t : State} (h : performOf i s = .ok t) : SameSetting s t := by
  rcases performOf_ok h with ⟨-, rfl⟩ | ⟨a, -, rfl⟩ | ⟨n, -, -, rfl⟩ | ⟨b, -, -, rfl⟩ | ⟨b0, b1, -, -, rfl⟩ |
    ⟨-, -, rfl⟩ | ⟨-, rfl⟩ <;> exact ⟨rfl, rfl⟩

theorem sameSetting_of_onEdge {e : Edge} {s t : State} (h : onEdge e s = .next t) : SameSetting s t := by
  rcases onEdge_next_cases h with rfl | rfl | ⟨code, w, -, -, rfl⟩ | ⟨i, -, hp⟩
  · exact ⟨rfl, rfl⟩
  · exact ⟨rfl, rfl⟩
  · exact ⟨rfl, rfl⟩
  · exact sameSetting_of_performOf_ok hp

theorem exists_onEdge_next (e : Edge) (s : State) : ∃ t, onEdge e s = .next t := by
  cases hrst : e.rst with
  | true => exact ⟨_, onEdge_reset hrst s⟩
  | false =>
    cases hvalid : e.cmdValid with
    | false => exact ⟨_, onEdge_idle hrst hvalid s⟩
    | true =>
      obtain ⟨u, -, haccept⟩ := acceptWord_outcome e.cmd s
      exact ⟨_, (onEdge_word hrst hvalid s).trans (haccept s.inputs)⟩

/-- Settles O25: an edge always answers a next state and writes registers only; with no edge left the step is idle. -/
theorem everyEdgeGivesANextState : Obligations.EveryEdgeGivesANextState := by
  intro s
  cases hin : s.inputs with
  | nil => exact ⟨s, step_of_nil hin, rfl, hin, fun _ => rfl⟩
  | cons e later =>
    obtain ⟨t, ht⟩ := exists_onEdge_next e (s.withInputs later)
    obtain ⟨hcfg, hinputs⟩ := sameSetting_of_onEdge ht
    exact ⟨t, (step_of_cons hin).trans ht, hcfg, hinputs, nofun⟩

/-- The rows of the write matrix that a command's own writes are held to: the registers other than ERR and FCMD. -/
structure WritesByMatrix (i : Instr) (s t : State) : Prop where
  addr : t.addr ≠ s.addr → (∃ a, i = .start a) ∨ i = .endRec
  csum : t.csum ≠ s.csum → i ≠ .nop ∧ i ≠ .endRec
  len : t.len ≠ s.len → (∃ a, i = .start a) ∨ ∃ n, i = .beginRec n
  cnt : t.cnt ≠ s.cnt → i ≠ .nop ∧ i ≠ .endRec ∧ i ≠ .term
  phase : t.phase ≠ s.phase → i ≠ .nop ∧ (∀ b, i ≠ .data b) ∧ ∀ b0 b1, i ≠ .data2 b0 b1
  total : t.total ≠ s.total → (∃ a, i = .start a) ∨ i = .endRec
  result : (t.outLen ≠ s.outLen ∨ t.outAddr ≠ s.outAddr ∨ t.outCsum ≠ s.outCsum) → i = .endRec ∨ i = .term
  outValid : t.outValid ≠ s.outValid → i ≠ .nop ∧ (∀ b, i ≠ .data b) ∧ ∀ b0 b1, i ≠ .data2 b0 b1

/-- The fault action is in no row of the matrix but those of ERR and FCMD. -/
theorem writesByMatrix_raise (i : Instr) (code : ErrCode) (w : CmdWord) (s : State) :
    WritesByMatrix i s (raise code w s) := by
  constructor <;> simp

theorem writesByMatrix_self (i : Instr) (s : State) : WritesByMatrix i s s := by
  constructor <;> simp

theorem writesByMatrix_of_performOf_ok {i : Instr} {s t : State} (h : performOf i s = .ok t) :
    WritesByMatrix i s t := by
  rcases performOf_ok h with ⟨-, rfl⟩ | ⟨a, rfl, rfl⟩ | ⟨n, rfl, -, rfl⟩ | ⟨b, rfl, -, rfl⟩ |
    ⟨b0, b1, rfl, -, rfl⟩ | ⟨rfl, -, rfl⟩ | ⟨rfl, rfl⟩
  case inl => exact writesByMatrix_self _ _
  all_goals constructor <;> simp

/-- A command's own writes leave FCMD. -/
theorem fcmd_of_performOf_ok {i : Instr} {s t : State} (h : performOf i s = .ok t) : t.fcmd = s.fcmd := by
  rcases performOf_ok h with ⟨-, rfl⟩ | ⟨a, -, rfl⟩ | ⟨n, -, -, rfl⟩ | ⟨b, -, -, rfl⟩ | ⟨b0, b1, -, -, rfl⟩ |
    ⟨-, -, rfl⟩ | ⟨-, rfl⟩ <;> rfl

/-- The state after a command: unchanged, the fault action with an error and the command's word, or its own writes. -/
theorem exec_next_cases_word {i : Instr} {s t : State} (h : exec i s = .next t) :
    t = s ∨ (∃ code, s.err = .none ∧ code ≠ .none ∧ t = raise code (encode i) s) ∨ performOf i s = .ok t := by
  have next {u : State} (he : exec i s = .next u) : t = u := Host.Outcome.next.inj (h.symm.trans he)
  rcases exec_cases i s with ⟨-, he⟩ | ⟨herr, -, he⟩ | ⟨herr, -, -, he⟩ | ⟨code, herr, -, -, hp, he⟩ |
    ⟨u, -, -, -, hp, he⟩
  · exact .inl (next he)
  · exact .inr (.inl ⟨.ill, herr, nofun, next he⟩)
  · exact .inr (.inl ⟨.seq, herr, nofun, next he⟩)
  · exact .inr (.inl ⟨code, herr, performOf_error_ne_none hp, next he⟩)
  · exact .inr (.inr (next he ▸ hp))

/-- The columns ERR and FCMD: they change together, by the fault action alone. -/
theorem err_fcmd_of_exec {i : Instr} {s t : State} (h : exec i s = .next t) :
    (t.err ≠ s.err → t = { s with err := t.err, fcmd := encode i }) ∧ (t.err = s.err → t.fcmd = s.fcmd) := by
  rcases exec_next_cases_word h with rfl | ⟨code, herr, hcode, rfl⟩ | hp
  · exact ⟨fun hne => absurd rfl hne, fun _ => rfl⟩
  · exact ⟨fun _ => rfl, fun heq => absurd (heq.trans herr) hcode⟩
  · exact ⟨fun hne => absurd (err_of_performOf_ok hp) hne, fun _ => fcmd_of_performOf_ok hp⟩

theorem writesByMatrix_of_exec {i : Instr} {s t : State} (h : exec i s = .next t) : WritesByMatrix i s t := by
  rcases exec_next_cases_word h with rfl | ⟨code, -, -, rfl⟩ | hp
  · exact writesByMatrix_self i _
  · exact writesByMatrix_raise i code _ s
  · exact writesByMatrix_of_performOf_ok hp

theorem sameSetting_of_exec {i : Instr} {s t : State} (h : exec i s = .next t) : SameSetting s t := by
  rcases exec_next_cases_word h with rfl | ⟨code, -, -, rfl⟩ | hp
  · exact ⟨rfl, rfl⟩
  · exact ⟨rfl, rfl⟩
  · exact sameSetting_of_performOf_ok hp

/-- Settles O29: the rows of the registers hold of every command's own writes, the fault action writes ERR and FCMD, and
neither writes the model's own fields. -/
theorem writeMatrix : Obligations.WriteMatrix := by
  intro i s t h
  obtain ⟨haddr, hcsum, hlen, hcnt, hphase, htotal, hresult, hvalid⟩ := writesByMatrix_of_exec h
  obtain ⟨herr, hfcmd⟩ := err_fcmd_of_exec h
  exact ⟨haddr, hcsum, hlen, hcnt, hphase, htotal, hresult, hvalid, herr, hfcmd, sameSetting_of_exec h⟩

end Sys2Proof.Machine
end

section
/-! SUPPORT. The chunks of ENCODE (30_encoding.md R58): their lengths and their bytes, and the records made of them
(41_record.md R71, R72, R75). -/

namespace Sys2Proof.Machine

/-- The record lengths of an ENCODE of `n` bytes: full records, then the rest if there is one (41_record.md R75). -/
def recordLengths (n : Nat) : List Nat := List.replicate (n / 24) 24 ++ if n % 24 = 0 then [] else [n % 24]

theorem recordLengths_zero : recordLengths 0 = [] := rfl

/-- The first record takes 24 bytes, or all of them if there are fewer. -/
theorem recordLengths_of_pos {n : Nat} (hpos : 0 < n) : recordLengths n = min 24 n :: recordLengths (n - 24) := by
  rcases Nat.lt_or_ge n 24 with hlt | hge
  · rw [Nat.min_eq_right hlt.le, Nat.sub_eq_zero_of_le hlt.le, recordLengths_zero, recordLengths,
      Nat.div_eq_of_lt hlt, Nat.mod_eq_of_lt hlt, if_neg hpos.ne']
    rfl
  · obtain ⟨m, rfl⟩ := Nat.exists_eq_add_of_le' hge
    rw [Nat.min_eq_left hge, Nat.add_sub_cancel, recordLengths, Nat.add_div_right m (by decide), Nat.add_mod_right]
    rfl

/-- A chunk leaves fewer bytes than there were. -/
theorem length_drop_maxLen_le {bs : List Byte} {count : Nat} (h : bs.length ≤ count + 1) :
    (bs.drop maxLen).length ≤ count := by
  rw [List.length_drop, maxLen]
  omega

/-- A count that is at least the number of bytes cuts all of them, as `recordLengths` says. -/
theorem map_length_chunksUpTo {count : Nat} {bs : List Byte} (h : bs.length ≤ count) :
    (chunksUpTo count bs).map List.length = recordLengths bs.length := by
  induction count generalizing bs with
  | zero =>
    rw [List.length_eq_zero_iff.1 (Nat.le_zero.1 h)]
    rfl
  | succ count ih =>
    cases bs with
    | nil => rfl
    | cons b bs =>
      have hpos : 0 < (b :: bs).length := Nat.succ_pos _
      rw [chunksUpTo, List.map_cons, ih (length_drop_maxLen_le h), List.length_take, List.length_drop,
        recordLengths_of_pos hpos, maxLen]

theorem flatten_chunksUpTo {count : Nat} {bs : List Byte} (h : bs.length ≤ count) :
    (chunksUpTo count bs).flatten = bs := by
  induction count generalizing bs with
  | zero =>
    rw [List.length_eq_zero_iff.1 (Nat.le_zero.1 h)]
    rfl
  | succ count ih =>
    cases bs with
    | nil => rfl
    | cons b bs =>
      rw [chunksUpTo, List.flatten_cons, ih (length_drop_maxLen_le h), List.take_append_drop]

theorem flatten_chunks (bs : List Byte) : (chunks bs).flatten = bs :=
  flatten_chunksUpTo le_rfl

/-- Settles O42: cutting 24 bytes off takes one full record off the list of lengths, and the pieces join again. -/
theorem encodeIssuesFullRecordsThenTheRest : Obligations.EncodeIssuesFullRecordsThenTheRest :=
  fun bs => ⟨map_length_chunksUpTo le_rfl, flatten_chunks bs, fun _ => rfl⟩

theorem length_le_of_mem_chunksUpTo {count : Nat} {bs c : List Byte} (h : c ∈ chunksUpTo count bs) :
    c.length ≤ maxLen := by
  induction count generalizing bs with
  | zero => nomatch h
  | succ count ih =>
    cases bs with
    | nil => nomatch h
    | cons b bs =>
      rcases List.mem_cons.1 h with rfl | hmem
      · exact List.length_take_le _ _
      · exact ih hmem

/-- The records of an ENCODE, each given by its DATA commands. -/
def encodeRecords (bs : List Byte) : List (List Instr) := (chunks bs).map dataEach

theorem encodeRun_eq_records (a : Half) (bs : List Byte) :
    encodeRun a bs = .start a :: (encodeRecords bs).flatMap recordOf := by
  rw [encodeRun, encodeRecords, List.flatMap_map, funext recordCmds_eq_recordOf]

theorem legalPayload_encodeRecords {bs : List Byte} : ∀ is ∈ encodeRecords bs, LegalPayload is := by
  intro is his
  obtain ⟨c, hc, rfl⟩ := List.mem_map.1 his
  exact legalPayload_dataEach (length_le_of_mem_chunksUpTo hc)

theorem payloadCount_encodeRecords (bs : List Byte) : payloadCount (encodeRecords bs) = bs.length := by
  calc payloadCount (encodeRecords bs)
      _ = ((chunks bs).map List.length).sum := by
        simp only [payloadCount, encodeRecords, List.map_map, Function.comp_def, delivered_dataEach]
      _ = (chunks bs).flatten.length := List.length_flatten.symm
      _ = bs.length := by rw [flatten_chunks]

/-- Settles O43: ENCODE is START and legal records, whose payload is all of the bytes, so R71 and R72 apply. -/
theorem encodeRunCompletes : Obligations.EncodeRunCompletes := by
  intro s a bs herr hphase
  obtain ⟨t, hrun, haddr, htotal, hok, hidle, hinputs⟩ :=
    cursorAndTotalLaw.2.1 (encodeRecords bs) s a legalPayload_encodeRecords herr hphase
  rw [payloadCount_encodeRecords] at haddr htotal
  rw [encodeRun_eq_records]
  exact ⟨t, hrun, hok, hidle, haddr, htotal, hinputs⟩

end Sys2Proof.Machine
end

section
/-! SUPPORT. The two commands that deliver payload, DATA and DATA2, by the bytes they deliver (41_record.md R66, R67). -/

namespace Sys2Proof.Machine

section
variable {i : Instr} {s : State} (hi : payloadOf i ≠ [])
include hi

theorem performOf_payload (s : State) : performOf i s = takePayload (payloadOf i) s := by
  cases i with
  | data b => rfl
  | data2 b0 b1 => rfl
  | _ => exact absurd rfl hi

theorem legal_payload_iff (p : Phase) : legal i p = true ↔ p = .recording := by
  cases i with
  | data b => cases p <;> simp [legal]
  | data2 b0 b1 => cases p <;> simp [legal]
  | _ => exact absurd rfl hi

theorem wellFormed_payload (termEn : Bool) : i.wellFormed termEn = true :=
  (wellFormed_iff termEn i).2 (.inr fun hterm => hi (hterm ▸ rfl))

theorem exec_payload_fits (herr : s.err = .none) (hrec : s.phase = .recording)
    (hfit : s.cnt.toNat + (payloadOf i).length ≤ s.len.toNat) :
    exec i s = .next (addPayload (payloadOf i) s) :=
  exec_perform_ok i s _ herr (wellFormed_payload hi _) ((legal_payload_iff hi _).2 hrec)
    ((performOf_payload hi s).trans (takePayload_ok hfit))

theorem exec_payload_overrun (herr : s.err = .none) (hrec : s.phase = .recording)
    (hover : s.len.toNat < s.cnt.toNat + (payloadOf i).length) :
    exec i s = .next (raise .ovr (encode i) s) := by
  refine exec_perform_error i s .ovr herr (wellFormed_payload hi _) ((legal_payload_iff hi _).2 hrec) ?_
  rw [performOf_payload hi, takePayload, overrun, decide_eq_true hover, if_pos rfl]

theorem exec_payload_out_of_phase (herr : s.err = .none) (hphase : s.phase ≠ .recording) :
    exec i s = .next (raise .seq (encode i) s) :=
  exec_out_of_phase i s herr (wellFormed_payload hi _)
    (Bool.eq_false_iff.2 (mt (legal_payload_iff hi s.phase).1 hphase))

end

/-- The bytes enter CSUM as one number, modulo 65536. -/
theorem addPayload_eq_ofNat (bs : List Byte) (s : State) :
    addPayload bs s = { s with csum := BitVec.ofNat 16 (s.csum.toNat + byteSum bs),
                               cnt := s.cnt + BitVec.ofNat 5 bs.length } := by
  rw [addPayload, sumBytes_eq_add, BitVec.ofNat_add, BitVec.ofNat_toNat, BitVec.setWidth_eq, byteSum]

theorem encode_data (b : Byte) : encode (.data b) = 0x300000#24 ||| b.setWidth 24 :=
  packWord_byte_eq_or 0x3#4 b

/-- The operand of form B8x2 has its first byte above the second (30_encoding.md R48). -/
theorem setWidth_append_eq_or (b0 b1 : Byte) :
    (b0 ++ b1 : Half).setWidth 24 = b0.setWidth 24 <<< 8 ||| b1.setWidth 24 := by
  apply BitVec.eq_of_getLsbD_eq
  intro k hk
  simp only [BitVec.getLsbD_setWidth, BitVec.getLsbD_append, BitVec.getLsbD_or, BitVec.getLsbD_shiftLeft, hk]
  by_cases hlow : k < 8
  · simp [hlow]
  · have hhigh : b1.getLsbD k = false := BitVec.getLsbD_of_ge b1 k (Nat.le_of_not_lt hlow)
    have hk' : k - 8 < 24 := by omega
    simp [hlow, hhigh, hk']

theorem encode_data2 (b0 b1 : Byte) :
    encode (.data2 b0 b1) = 0x600000#24 ||| b0.setWidth 24 <<< 8 ||| b1.setWidth 24 := by
  calc encode (.data2 b0 b1)
      _ = 0x600000#24 ||| (b0 ++ b1 : Half).setWidth 24 := packWord_eq_or 0x6#4 (b0 ++ b1)
      _ = 0x600000#24 ||| b0.setWidth 24 <<< 8 ||| b1.setWidth 24 := by
        rw [setWidth_append_eq_or, BitVec.or_assoc]

/-- Settles O4: DATA delivers one byte, and its word leaves `w[19:8]` 0. -/
theorem dataAddsOneByte : Obligations.DataAddsOneByte := by
  have hi (b : Byte) : payloadOf (.data b) ≠ [] := nofun
  refine ⟨?fits, ?overrun, ?outOfPhase, encode_data, ?illegal⟩
  case fits =>
    intro b s herr hrec hfit
    rw [exec_payload_fits (hi b) herr hrec hfit, addPayload_eq_ofNat]
    rfl
  case overrun =>
    intro b s herr hrec hover
    rw [exec_payload_overrun (hi b) herr hrec hover, encode_data, raise]
  case outOfPhase =>
    intro b s herr hphase
    rw [exec_payload_out_of_phase (hi b) herr hphase, encode_data, raise]
  case illegal =>
    intro w s herr hop hbits
    rcases hbits with hhigh | hrsv
    · exact acceptWord_of_decode_ne_ok herr fun _ hd => hhigh (argHigh_eq_zero_of_decode (.inr hop) hd)
    · exact acceptWord_of_rsvField_ne_zero herr hrsv

/-- Settles O5: DATA2 delivers two bytes or, where they do not both fit, none. -/
theorem dataTwoAddsTwoBytes : Obligations.DataTwoAddsTwoBytes := by
  have hi (b0 b1 : Byte) : payloadOf (.data2 b0 b1) ≠ [] := nofun
  refine ⟨?fits, ?overrun, ?outOfPhase, encode_data2, ?illegal⟩
  case fits =>
    intro b0 b1 s herr hrec hfit
    rw [exec_payload_fits (hi b0 b1) herr hrec hfit, addPayload_eq_ofNat, Nat.add_assoc]
    rfl
  case overrun =>
    intro b0 b1 s herr hrec hover
    rw [exec_payload_overrun (hi b0 b1) herr hrec hover, encode_data2, raise]
  case outOfPhase =>
    intro b0 b1 s herr hphase
    rw [exec_payload_out_of_phase (hi b0 b1) herr hphase, encode_data2, raise]
  case illegal =>
    intro w s herr _ hrsv
    exact acceptWord_of_rsvField_ne_zero herr hrsv

end Sys2Proof.Machine
end

section
/-! SUPPORT. The phase after TERM (42_terminator.md R82). -/

namespace Sys2Proof.Machine

theorem legal_done_iff (i : Instr) : legal i .done = true ↔ i = .nop ∨ ∃ a, i = .start a := by
  cases i <;> simp [legal]

/-- Settles O9: TERM enters DONE, whose column of the phase table has NOP and START alone. -/
theorem doneAcceptsOnlyNopAndStart : Obligations.DoneAcceptsOnlyNopAndStart := by
  refine ⟨?enters, fun s herr hterm hdone => ⟨exec_nop s, ?start, ?others⟩⟩
  case enters =>
    intro s herr hterm hidle
    exact ⟨_, exec_term_ok herr hterm hidle, rfl⟩
  case start =>
    intro a
    exact ⟨_, exec_start_ok a herr (.inr hdone), herr, rfl, rfl, rfl⟩
  case others =>
    intro i hnop hstart
    have hl : legal i s.phase = false := by
      rw [hdone, Bool.eq_false_iff, Ne, legal_done_iff]
      rintro (rfl | ⟨a, rfl⟩)
      · exact hnop rfl
      · exact hstart a rfl
    exact exec_out_of_phase i s herr (hterm ▸ wellFormed_true i) hl

end Sys2Proof.Machine
end

section
/-! SUPPORT. The operand ranges of the assembler (30_encoding.md R55). -/

namespace Sys2Proof.Machine

/-- A field takes the numbers up to its largest value. -/
theorem fitField_eq_ite {k max : Nat} (h : 2 ^ k = max + 1) (n : Nat) :
    fitField k n = if n ≤ max then some (BitVec.ofNat k n) else none := by
  simp only [fitField, h, Nat.lt_succ_iff]

/-- A line with one operand gives its command where the operand fits. -/
theorem map_fitField {k max : Nat} (h : 2 ^ k = max + 1) (n : Nat) (command : BitVec k → Instr) :
    (fitField k n).map (fun v => [command v]) = if n ≤ max then some [command (BitVec.ofNat k n)] else none := by
  rw [fitField_eq_ite h]
  split <;> rfl

theorem lineCommands_data2 (b0 b1 : Nat) :
    lineCommands .data2 [b0, b1] =
      (fitField 8 b0).bind fun v0 => (fitField 8 b1).map fun v1 => [.data2 v0 v1] := by
  simp only [lineCommands]
  cases fitField 8 b0 <;> cases fitField 8 b1 <;> rfl

/-- Settles O14: each row of the syntax reads its operands by `fitField`, DATA2 refusing the line if either does not fit. -/
theorem assemblerRefusesOperandsThatDoNotFit : Obligations.AssemblerRefusesOperandsThatDoNotFit := by
  refine ⟨⟨rfl, rfl, rfl⟩, fun a => map_fitField rfl a .start, fun n => map_fitField rfl n .beginRec,
    fun b => map_fitField rfl b .data, ?data2⟩
  case data2 =>
    intro b0 b1
    rw [lineCommands_data2, fitField_eq_ite (max := 0xFF) rfl]
    by_cases h0 : b0 ≤ 0xFF
    · rw [if_pos h0, Option.bind_some, map_fitField (max := 0xFF) rfl]
      simp [h0]
    · simp [h0]

end Sys2Proof.Machine
end
